-- ==== Sys2Proof/Word.lean ====
section
/-! DEFINITION. The plain types of the hardware: a byte and a Value. -/

namespace Sys2Proof

/-- A byte of a stream, 8 bits (R4 `BYTE_W`). -/
abbrev Byte := BitVec 8

/-- A Value, "an unsigned integer in [0, 2^64 - 1]" (R4 `VALUE_W`, R6). -/
abbrev Value := BitVec 64

end Sys2Proof
end

