-- ==== Sys2Proof/Config.lean ====
section
/-! DEFINITION. What the spec leaves open and the model leaves free: constants without a body, so that nothing can evaluate them and every claim holds whatever they are. -/

namespace Sys2Proof

/-- `ERR_W`, the width of `snk_err_info` and `src_err_info`: a parameter of the model that the spec leaves
open (R5, R24, D6). -/
opaque Config.errWidth : Nat

/-- `IoErr`, the type of the error information `e` a sink or source hands back: what an error port of the open
width `ERR_W` carries (R5, R19, R20, D6).  Nothing is known of how many such values there are or what they
mean.  The block copies `e` and never inspects it (R138).  Log 8. -/
structure IoErr where
  bits : BitVec Config.errWidth
  deriving DecidableEq, Repr, Inhabited

namespace Config

/-- The error information `EndOfInput` with which the simple source fails (R34).  The spec gives it no
bits (N18: "Do not assume the error distinguishes end-of-input from other causes"). Log 8. -/
opaque endOfInput : IoErr

/-- The draw behind the number of bytes a failed source read, or a read abandoned by `rst`, consumes:
"an unspecified `c` with `0 <= c <= min(n, avail)`, a draw of the environment" (R36, R161, U4).
The model brings it into that range. Log 6. -/
opaque failedReadDraw : Nat → Nat

/-- What the latch `enc_v` holds after `rst` ("unspecified", R25, R160). Log 2. -/
opaque freeEncV : Nat → Value

/-- What the latch `dec_prefix` holds after `rst` ("unspecified", R25, R160). Log 2. -/
opaque freeDecPrefix : Nat → Byte

end Config

end Sys2Proof
end

