-- ==== Sys2Proof/Machine/Operands.lean ====
section
/-! DEFINITION. The functions on operands: byte sequences and their little-endian reading, Bits and NumBytes, Tz8 and PrefixLen, EncInt and EncBytes, DecValue, and the port lanes. -/

namespace Sys2Proof.Machine

/-! ### Byte sequences (00_scope.md section 5.2, R32) -/

/-- `LE(bs)`: the sequence read as a little-endian unsigned integer. -/
def le : List Byte → Nat
  | [] => 0
  | b :: bs => b.toNat + 256 * le bs

/-- `Bytes_n(x)`: the `n` bytes whose `LE` is `x`; byte `i` is `x[8i+7 : 8i]`. -/
def bytesLE : Nat → Nat → List Byte
  | 0, _ => []
  | n + 1, x => BitVec.ofNat 8 x :: bytesLE n (x / 256)

/-! ### Size of a Value (40_size_of.md) -/

/-- `Bits(v)`: "the number of significant bits of `v` (treating `v == 0` as having 1 significant
bit)" (R70). -/
def bits (v : Value) : Nat :=
  if v.toNat = 0 then 1 else 1 + Nat.log2 v.toNat

/-- `NumBytes(v)` (R71), with no split above `2^56` (R73). -/
def numBytes (v : Value) : Nat :=
  if bits v > 56 then 9 else 1 + (bits v - 1) / 7

/-! ### The prefix byte (30_encoding.md R52, R53) -/

/-- `Tz8(b)`: "8 if b == 0, the least i in 0..7 with b[i] == 1 otherwise" (R52). -/
def tz8 (b : Byte) : Nat :=
  ((List.range 8).find? fun i => b.getLsbD i).getD 8

/-- `PrefixLen(b) = Tz8(b) + 1` (R53). -/
def prefixLen (b : Byte) : Nat := tz8 b + 1

/-! ### Encoding a Value (41_encode.md) -/

/-- `EncInt(v)`, shifts in the unbounded naturals (R80). -/
def encInt (v : Value) : Nat :=
  let n := numBytes v
  if n ≤ 8 then ((v.toNat <<< 1) ||| 1) <<< (n - 1) else v.toNat <<< 8

/-- `EncBytes(v) = Bytes_n(EncInt(v))`, `n = NumBytes(v)` (R81). -/
def encBytes (v : Value) : List Byte := bytesLE (numBytes v) (encInt v)

/-- The port `snk_len` of the write request for `v`, 4 bits (R84). -/
def snkLen (v : Value) : BitVec 4 := BitVec.ofNat 4 (numBytes v)

/-- The port `snk_data` of the write request for `v`, 72 bits (R84). -/
def snkData (v : Value) : BitVec 72 := BitVec.ofNat 72 (encInt v)

/-! ### Decoding (42_decode.md) -/

/-- A byte sequence the decoder accepts: its first byte declares its length (R60 point 3). -/
def accepted : List Byte → Bool
  | [] => false
  | p :: rest => (p :: rest).length == prefixLen p

/-- `DecValue(bs)` on accepted sequences (R95); 0 on the empty sequence, which is outside its domain. -/
def decValue : List Byte → Value
  | [] => 0
  | p :: rest =>
    let n := prefixLen p
    if n ≤ 8 then BitVec.ofNat 64 (le (p :: rest) >>> n)
    else BitVec.ofNat 64 (le (p :: rest) >>> 8)

/-- `bs` is canonical: the encoder produces it for the Value it decodes to (R60 point 4). -/
def canonical (bs : List Byte) : Bool := bs == encBytes (decValue bs)

/-- The value of a one-byte Encoding, `p >> 1` with a zero-filling shift (R97, R99 step 3, C1). -/
def shortValue (p : Byte) : Value := (p >>> 1).setWidth 64

/-- The value DEC forms from the prefix byte and the 64-bit port `src_data` at the reply of the second
read: lanes `0 .. n-2` give `r`, the other lanes are ignored (R103, R99 steps 4 and 5). -/
def restValue (p : Byte) (d : BitVec 64) : Value :=
  let n := prefixLen p
  let r := d.toNat % 2 ^ (8 * (n - 1))
  if n ≤ 8 then BitVec.ofNat 64 (((r <<< 8) ||| p.toNat) >>> n) else BitVec.ofNat 64 r

/-! ### Port lanes (10_state.md R20, U8) -/

/-- The 64 bits of `src_data` when the source yields `bs`: byte `i` on lane `i`; on the lanes at and
above `|bs|` whatever the source drives there, here those lanes of `upper`. -/
def srcLanes (bs : List Byte) (upper : BitVec 64) : BitVec 64 :=
  BitVec.ofNat 64 (le bs) ||| ((upper >>> (8 * bs.length)) <<< (8 * bs.length))

/-- Lane `i` of `src_data`. -/
def srcLane (d : BitVec 64) (i : Nat) : Byte := d.extractLsb' (8 * i) 8

end Sys2Proof.Machine
end

