-- ==== Sys2Proof/Syntax.lean ====
section
/-! DEFINITION. The instructions: one constructor for each of the twelve rows of spec/opcode_table.json, and the port events that select an operation. -/

namespace Sys2Proof

/-- The twelve rows of the opcode table.

`l1` .. `l9` are the rows of format `WIRE` (R54 to R56): an Encoding of 1 .. 9 bytes that carries the
payload given here as a Value (zero-extended, R58).  Which payloads a class can carry is checked in
`WellFormed`.  `sizeOf`, `encode` and `decode` are the rows of format `OP` (R63). -/
inductive Instr where
  | l1 (payload : Value)
  | l2 (payload : Value)
  | l3 (payload : Value)
  | l4 (payload : Value)
  | l5 (payload : Value)
  | l6 (payload : Value)
  | l7 (payload : Value)
  | l8 (payload : Value)
  | l9 (payload : Value)
  /-- `SIZE_OF v -> r` on BWC (R74). -/
  | sizeOf (v : Value)
  /-- `ENCODE v` on ENC (R83). -/
  | encode (v : Value)
  /-- `DECODE -> r` on DEC (R99). -/
  | decode
  deriving DecidableEq, Repr

/-- A request of the requester: "an operation is selected by which unit receives the request, not by any
bit pattern" (R62); the ports are those of R18, R19 and R20. -/
inductive Request where
  /-- `bwc_value` is set to `v`: BWC performs `SIZE_OF` on it. -/
  | bwcValue (v : Value)
  /-- The event `enc_req` with `enc_value = v`. -/
  | encReq (v : Value)
  /-- The event `dec_req`, which carries nothing. -/
  | decReq
  deriving DecidableEq, Repr

/-- What an instruction is told by: the bytes of an Encoding (R53) or the port that receives a request
(R62). -/
inductive Code where
  | wire (bytes : List Byte)
  | port (r : Request)
  deriving DecidableEq, Repr

/-- The length class of a WIRE form, `none` for an operation (R54). -/
def Instr.wireClass : Instr → Option (Nat × Value)
  | .l1 p => some (1, p)
  | .l2 p => some (2, p)
  | .l3 p => some (3, p)
  | .l4 p => some (4, p)
  | .l5 p => some (5, p)
  | .l6 p => some (6, p)
  | .l7 p => some (7, p)
  | .l8 p => some (8, p)
  | .l9 p => some (9, p)
  | .sizeOf _ => none
  | .encode _ => none
  | .decode => none

end Sys2Proof
end

