-- ==== Sys2Proof/WellFormed.lean ====
section
/-! DEFINITION. When an instruction is well formed: a WIRE form's payload fits the payload bits of its length class. -/

namespace Sys2Proof

/-- The payload of class `Ln`, `n <= 8`, is `7n` bits wide (R54, R55: "which for this class satisfies
`v < 2^(7n)`"); that of `L9` is any 64-bit Value (R56).  Every operand of an operation is legal (R62). -/
def Instr.wellFormed : Instr → Bool
  | .l1 p => p.toNat < 2 ^ 7
  | .l2 p => p.toNat < 2 ^ 14
  | .l3 p => p.toNat < 2 ^ 21
  | .l4 p => p.toNat < 2 ^ 28
  | .l5 p => p.toNat < 2 ^ 35
  | .l6 p => p.toNat < 2 ^ 42
  | .l7 p => p.toNat < 2 ^ 49
  | .l8 p => p.toNat < 2 ^ 56
  | .l9 _ => true
  | .sizeOf _ => true
  | .encode _ => true
  | .decode => true

end Sys2Proof
end

