-- ==== Sys2Proof/Decode.lean ====
section
/-! DEFINITION. The decoder, written from the nine WIRE rows and the three ports of the opcode table, and after it the encoder, written from the field tables of R55 and R56. -/

namespace Sys2Proof

/-- One WIRE row of the table (R53, R64): a sequence belongs to it iff `bs[0] & mask == match`;
`shift` extracts the payload from the little-endian integer of the `len` bytes. -/
structure WireRow where
  len : Nat
  mask : Byte
  pattern : Byte
  shift : Nat
  deriving DecidableEq, Repr

/-- The nine WIRE rows (R53; `shift` from R64). -/
def wireRows : List WireRow :=
  [⟨1, 0x01, 0x01, 1⟩, ⟨2, 0x03, 0x02, 2⟩, ⟨3, 0x07, 0x04, 3⟩, ⟨4, 0x0F, 0x08, 4⟩,
   ⟨5, 0x1F, 0x10, 5⟩, ⟨6, 0x3F, 0x20, 6⟩, ⟨7, 0x7F, 0x40, 7⟩, ⟨8, 0xFF, 0x80, 8⟩,
   ⟨9, 0xFF, 0x00, 8⟩]

/-- `b` lies in the row. -/
def WireRow.has (r : WireRow) (b : Byte) : Bool := b &&& r.mask == r.pattern

/-- Why the decoder gives no instruction for a byte sequence.  No byte value is at fault: every prefix
byte is legal and every following byte is payload (R60). -/
inductive DecodeError where
  /-- There is no byte to tell a length from. -/
  | noBytes
  /-- Fewer bytes than the first one declares (R101). -/
  | truncated (needed available : Nat)
  /-- No row of the table has the first byte; no byte value does this (R53). -/
  | noRow (p : Byte)
  deriving DecidableEq, Repr

/-- The WIRE form of length class `n` with the given payload. -/
def wireInstr : Nat → Value → Instr
  | 1, v => .l1 v
  | 2, v => .l2 v
  | 3, v => .l3 v
  | 4, v => .l4 v
  | 5, v => .l5 v
  | 6, v => .l6 v
  | 7, v => .l7 v
  | 8, v => .l8 v
  | _, v => .l9 v

/-- Reads one Encoding from the front of a byte sequence and returns the rest (R59, R61): the row of the
first byte gives the length, the row's shift extracts the payload, which is zero-extended (R58). -/
def decodeBytes : List Byte → Except DecodeError (Instr × List Byte)
  | [] => .error .noBytes
  | p :: rest =>
    match wireRows.find? (·.has p) with
    | none => .error (.noRow p)
    | some row =>
      if (p :: rest).length < row.len then .error (.truncated row.len (p :: rest).length)
      else
        let e := Machine.le ((p :: rest).take row.len)
        .ok (wireInstr row.len (BitVec.ofNat 64 (e >>> row.shift)), (p :: rest).drop row.len)

/-- The operation a request selects, told by its port alone (R62). -/
def decodeRequest : Request → Instr
  | .bwcValue v => .sizeOf v
  | .encReq v => .encode v
  | .decReq => .decode

/-- The instruction a code stands for. -/
def decode : Code → Except DecodeError Instr
  | .wire bs => (decodeBytes bs).map (·.1)
  | .port r => .ok (decodeRequest r)

/-- The instruction the decoder reads from an instruction whose bits are `w`, bit 0 the least significant
bit of the first byte, zero above the row's `nbits`.  The bytes lie as on the wire: first byte first
(R32), nine of them, the longest Encoding (R4 `MAX_LEN`).  With no bits there is no byte to read: "no bits
select the operation" (R62), and the rows of width 0 are told by their port (log 9). -/
def decodeTableWord (nbits w : Nat) : Option Instr :=
  if nbits = 0 then none
  else
    match decodeBytes (Machine.bytesLE 9 (w % 2 ^ nbits)) with
    | .ok (i, _) => some i
    | .error _ => none

/-! ### The encoder -/

/-- The little-endian integer of a WIRE form: `(payload << n) | (1 << (n-1))` for `n <= 8` (R55),
`payload << 8` for `n = 9` (R56). -/
def wireInt (n : Nat) (payload : Value) : Nat :=
  if n ≤ 8 then (payload.toNat <<< n) ||| (1 <<< (n - 1)) else payload.toNat <<< 8

/-- The bytes of a WIRE form, first on the wire first (R55, R56, R32). -/
def wireBytes (n : Nat) (payload : Value) : List Byte := Machine.bytesLE n (wireInt n payload)

/-- The code of an instruction: the bytes of a WIRE form, the request of an operation. -/
def encode : Instr → Code
  | .l1 p => .wire (wireBytes 1 p)
  | .l2 p => .wire (wireBytes 2 p)
  | .l3 p => .wire (wireBytes 3 p)
  | .l4 p => .wire (wireBytes 4 p)
  | .l5 p => .wire (wireBytes 5 p)
  | .l6 p => .wire (wireBytes 6 p)
  | .l7 p => .wire (wireBytes 7 p)
  | .l8 p => .wire (wireBytes 8 p)
  | .l9 p => .wire (wireBytes 9 p)
  | .sizeOf v => .port (.bwcValue v)
  | .encode v => .port (.encReq v)
  | .decode => .port .decReq

end Sys2Proof
end

