-- ==== Sys2Proof/Machine/Flags.lean ====
section
/-! DEFINITION. The status a completion carries.  The block has no flags and no condition codes (R16); the one status a requester sees is the bit of each completion event (R137). -/

namespace Sys2Proof.Machine

/-- What `enc_done` carries: `ENCODE` returns "unit" (R19). -/
inductive EncResult where
  | ok
  | ioError (e : IoErr)
  deriving DecidableEq, Repr

/-- What `dec_done` carries: "value or error, never both" (R142, D11). -/
inductive DecResult where
  | ok (v : Value)
  | ioError (e : IoErr)
  deriving DecidableEq, Repr

/-- The one-bit status codes: `0 = OK`, `1 = IO_ERROR` (R137). -/
def statusOk : BitVec 1 := 0

/-- The status code `IO_ERROR` (R137). -/
def statusIoError : BitVec 1 := 1

/-- The port `enc_status` (R19). -/
def EncResult.status : EncResult → BitVec 1
  | .ok => statusOk
  | .ioError _ => statusIoError

/-- The port `enc_err_info`, which has no meaning when the status is `OK` (R19). -/
def EncResult.errInfo : EncResult → Option IoErr
  | .ok => none
  | .ioError e => some e

/-- The port `dec_status` (R20). -/
def DecResult.status : DecResult → BitVec 1
  | .ok _ => statusOk
  | .ioError _ => statusIoError

/-- The port `dec_value`, which has no value when the status is `IO_ERROR` (R20, R142). -/
def DecResult.value : DecResult → Option Value
  | .ok v => some v
  | .ioError _ => none

/-- The port `dec_err_info`, which has no meaning when the status is `OK` (R20). -/
def DecResult.errInfo : DecResult → Option IoErr
  | .ok _ => none
  | .ioError e => some e

end Sys2Proof.Machine
end

