-- ==== Sys2Proof/Machine/State.lean ====
section
/-! DEFINITION. The state of the machine: the transient state of the units, the two byte streams, the port events, the fault record and the environment's inputs; the reasons to stop; the state after reset. -/

namespace Sys2Proof.Machine

/-- Phases of ENC: `IDLE -> WRITE -> IDLE` (R21). -/
inductive EncState where
  | idle
  | write
  deriving DecidableEq, Repr

/-- Phases of DEC (R22). -/
inductive DecState where
  | idle
  | rdPrefix
  | rdRest
  deriving DecidableEq, Repr

/-- The byte sink (R23).  `clean` is `snk.poisoned = false` with its content, oldest byte first; when
`snk.poisoned` is set the content "is undefined" and the model gives it no value (R36, U1). -/
inductive Sink where
  | clean (content : List Byte)
  | poisoned
  deriving DecidableEq, Repr

/-- The byte source (R23): its content, fixed at launch, and how many bytes are consumed. -/
structure Source where
  content : List Byte
  pos : Nat
  deriving DecidableEq, Repr

/-- The bytes not yet consumed, in order. -/
def Source.rest (s : Source) : List Byte := s.content.drop s.pos

/-- The position lies within the content: `0 <= src.pos <= |src.content|` (R23). -/
def Source.wf (s : Source) : Bool := s.pos ≤ s.content.length

/-- The byte of the source at a stream position, if there is one. -/
def Source.byteAt (s : Source) (k : Nat) : Option Byte := s.content[k]?

/-- The content of the sink, which has no value when it is poisoned. -/
def Sink.content : Sink → Option (List Byte)
  | .clean c => some c
  | .poisoned => none

/-- The flag `snk.poisoned` (R23). -/
def Sink.isPoisoned : Sink → Bool
  | .clean _ => false
  | .poisoned => true

/-- The byte of the sink at a stream position, if there is one. -/
def Sink.byteAt : Sink → Nat → Option Byte
  | .clean content, k => content[k]?
  | .poisoned, _ => none

/-- How the sink answers a write request (R19, R35). -/
inductive SinkReply where
  /-- `snk_ok`. -/
  | ok
  /-- `snk_err(e)`. -/
  | err (e : IoErr)
  deriving DecidableEq, Repr

/-- How the source means to answer a read request (R20, R34). -/
inductive SourceReply where
  /-- It yields the bytes if it has them, which is `src_ok`, and fails with `EndOfInput` if it has fewer,
  since failure is then "mandatory" (R34).  `upper` is what it drives on the lanes at and above
  `src_count`, "any value" (U8). -/
  | yield (upper : BitVec 64)
  /-- `src_err(e)`, "permitted always" (R34). -/
  | err (e : IoErr)
  deriving DecidableEq, Repr

/-- The events of the environment that a step can take in (R173). -/
inductive Input where
  /-- A request of the requester. -/
  | request (r : Request)
  /-- The sink answers a write request that has been waiting. -/
  | sinkReply (r : SinkReply)
  /-- The source answers a read request that has been waiting. -/
  | sourceReply (r : SourceReply)
  /-- The reset event `rst` of ENC and DEC (R160). -/
  | rst
  /-- Another agent writes to this ENC's sink during the run (R165). -/
  | otherSinkUser
  /-- Another agent reads from this DEC's source during the run (R165). -/
  | otherSourceUser
  deriving DecidableEq, Repr

/-- The events on the ports of ENC and DEC, each with the fields that travel in it (R19, R20); BWC has no
event (R18). -/
inductive PortEvent where
  | encReq (value : Value)
  | snkReq (len : BitVec 4) (data : BitVec 72)
  | snkOk
  | snkErr (e : IoErr)
  | encDone (r : EncResult)
  | decReq
  | srcReq (count : BitVec 4)
  | srcOk (data : BitVec 64)
  | srcErr (e : IoErr)
  | decDone (r : DecResult)
  | rst
  deriving DecidableEq, Repr

/-- The three causes of `IoFailure` (R136). -/
inductive Cause where
  /-- X1: the sink answers the write request of `ENCODE` with failure. -/
  | x1
  /-- X2: the source answers the 1-byte read of `DECODE` with failure. -/
  | x2
  /-- X3: the source answers the second read of `DECODE` with failure. -/
  | x3
  deriving DecidableEq, Repr

/-- An entry of the fault record (R26).  A refused request has no entry: it stops the run with the name of
the refusal, which is its record (log 10). -/
inductive FaultEntry where
  /-- A completion with `IO_ERROR` and its error information. -/
  | ioError (c : Cause) (e : IoErr)
  /-- The sink was poisoned. -/
  | sinkPoisoned
  deriving DecidableEq, Repr

/-- The machine.  Every field is plain data; INVENTORY.md lists the rule that names it. -/
structure State where
  /-- `enc_state` (R21). -/
  encState : EncState
  /-- `enc_v` (R21). -/
  encV : Value
  /-- `dec_state` (R22). -/
  decState : DecState
  /-- `dec_prefix` (R22). -/
  decPrefix : Byte
  /-- The port `bwc_value` (R18). -/
  bwcValue : Value
  /-- The sink of ENC (R23). -/
  snk : Sink
  /-- The source of DEC (R23). -/
  src : Source
  /-- The port events so far, oldest first (R19, R20). -/
  trace : List PortEvent
  /-- The fault record, oldest first, never cleared (R26). -/
  record : List FaultEntry
  /-- The environment's events to come, the next one first (R173). -/
  inputs : List Input
  /-- How the sink answers the next write requests; `none` is no answer for now (R24, R168); when the list
  is empty the sink is the simple sink (R35). -/
  snkAnswers : List (Option SinkReply)
  /-- How the source answers the next read requests; `none` is no answer for now (R24, R168); when the list
  is empty the source is the simple source (R34). -/
  srcAnswers : List (Option SourceReply)
  /-- The counter the free values of Config are applied to. -/
  draws : Nat
  deriving DecidableEq, Repr

/-- The port `bwc_len`, "at all times the function `NumBytes(bwc_value)` of the present input" (R18, R74). -/
def State.bwcLen (s : State) : BitVec 4 := BitVec.ofNat 4 (numBytes s.bwcValue)

/-- The write request that awaits its reply, with `snk_len` and `snk_data` (R84, R25). -/
def State.pendingSnkReq (s : State) : Option (BitVec 4 × BitVec 72) :=
  match s.encState with
  | .idle => none
  | .write => some (snkLen s.encV, snkData s.encV)

/-- The read request that awaits its reply, with `src_count` (R102, R103, R25). -/
def State.pendingSrcReq (s : State) : Option (BitVec 4) :=
  match s.decState with
  | .idle => none
  | .rdPrefix => some 1
  | .rdRest => some (BitVec.ofNat 4 (prefixLen s.decPrefix - 1))

/-- Why the machine stops because its environment broke a contract.  `IoFailure` is no such reason: it is
an outcome of the operation (R141). -/
inductive Fault where
  /-- Raised by the event `sinkReply` when ENC awaits no reply: the environment "is assumed never to answer
  a request that was not made" and such an answer has "no move in the model" (R173, U10, U12).  The spec
  marks the assumption "toward proving": unsafe for a system whose sink breaks its contract, safe
  otherwise. -/
  | unawaitedSinkReply
  /-- Raised by the event `sourceReply` when DEC awaits no reply (R173, U10, U12); unsafe or safe as for
  `unawaitedSinkReply`. -/
  | unawaitedSourceReply
  deriving DecidableEq, Repr

/-- Why the model gives a request no step. -/
inductive Refusal where
  /-- An instruction without a meaning; raised only by an arm of `exec`.  Safe. -/
  | notModelled (mnemonic : String)
  /-- Raised by `ENCODE` when `enc_state` is not `IDLE`: "A model gives a request to a busy unit no step
  (refused)" (R164).  Safe. -/
  | encBusy
  /-- Raised by `DECODE` and the WIRE forms when `dec_state` is not `IDLE` (R164).  Safe. -/
  | decBusy
  /-- Raised by `ENCODE` on a poisoned sink: the model "refuses a `MemWrite` to a sink with
  `snk.poisoned = true`" (R166).  Safe. -/
  | poisonedSink
  /-- Raised by the event `otherSinkUser`: "A model refuses such a run" (R165).  Safe. -/
  | sharedSink
  /-- Raised by the event `otherSourceUser`: "A model refuses such a run" (R165).  Safe. -/
  | sharedSource
  deriving DecidableEq, Repr

/-- The machine right after reset (R25): both units idle, no request pending, nothing recorded.  The spec
gives no value for the latches and for `bwc_value` (log 1, DESIGN CHOICE), for the streams (log 3) and for
the environment's part (log 4, log 6). -/
def State.reset : State where
  encState := .idle
  encV := 0
  decState := .idle
  decPrefix := 0
  bwcValue := 0
  snk := .clean []
  src := { content := [], pos := 0 }
  trace := []
  record := []
  inputs := []
  snkAnswers := []
  srcAnswers := []
  draws := 0

end Sys2Proof.Machine
end

