-- ==== Sys2Proof/Machine/Ops.lean ====
section
/-! DEFINITION. The named operations on the state: single updates, the two stream accesses, taking the one exception, reset, and what the next request selects. -/

namespace Sys2Proof.Machine

/-! ### Single updates -/

/-- A port event happens. -/
def State.emit (s : State) (e : PortEvent) : State := { s with trace := s.trace ++ [e] }

/-- An entry is added to the fault record (R26). -/
def State.note (s : State) (f : FaultEntry) : State := { s with record := s.record ++ [f] }

/-- ENC changes its phase. -/
def State.setEncState (s : State) (p : EncState) : State := { s with encState := p }

/-- ENC's operand latch is written. -/
def State.setEncV (s : State) (v : Value) : State := { s with encV := v }

/-- DEC changes its phase. -/
def State.setDecState (s : State) (p : DecState) : State := { s with decState := p }

/-- DEC's prefix latch is written. -/
def State.setDecPrefix (s : State) (p : Byte) : State := { s with decPrefix := p }

/-- The port `bwc_value` shows another Value. -/
def State.setBwcValue (s : State) (v : Value) : State := { s with bwcValue := v }

/-- The sink changes. -/
def State.setSnk (s : State) (k : Sink) : State := { s with snk := k }

/-- The source has `n` more bytes consumed. -/
def State.consume (s : State) (n : Nat) : State :=
  { s with src := { s.src with pos := s.src.pos + n } }

/-- The next free value is another one. -/
def State.tick (s : State) : State := { s with draws := s.draws + 1 }

/-- The environment's remaining events. -/
def State.setInputs (s : State) (l : List Input) : State := { s with inputs := l }

/-- The sink's remaining answers. -/
def State.setSnkAnswers (s : State) (l : List (Option SinkReply)) : State := { s with snkAnswers := l }

/-- The source's remaining answers. -/
def State.setSrcAnswers (s : State) (l : List (Option SourceReply)) : State := { s with srcAnswers := l }

/-! ### The environment's prompt answers (R24) -/

/-- A write request meets the sink's next answer: the reply step `k`, or the wait for a later one (R168). -/
def State.withSnkAnswer (s : State) (k : SinkReply → State → State) : State :=
  match s.snkAnswers with
  | [] => k .ok s
  | none :: l => s.setSnkAnswers l
  | some r :: l => k r (s.setSnkAnswers l)

/-- A read request meets the source's next answer: the reply step `k`, or the wait for a later one (R168). -/
def State.withSrcAnswer (s : State) (k : SourceReply → State → State) : State :=
  match s.srcAnswers with
  | [] => k (.yield 0) s
  | none :: l => s.setSrcAnswers l
  | some r :: l => k r (s.setSrcAnswers l)

/-! ### Taking the exception (R141) and completing -/

/-- Raises `IoFailure(e)`: the unit of the operation returns to `IDLE` and emits its completion with status
`IO_ERROR` and `e` unchanged; nothing is saved and control goes nowhere (R136, R138, R141).  The model's
record keeps the cause (R26).  There is no return from it: the unit accepts a request at once (R143). -/
def State.raiseIoFailure (s : State) (c : Cause) (e : IoErr) : State :=
  match c with
  | .x1 => ((s.setEncState .idle).note (.ioError .x1 e)).emit (.encDone (.ioError e))
  | .x2 => ((s.setDecState .idle).note (.ioError .x2 e)).emit (.decDone (.ioError e))
  | .x3 => ((s.setDecState .idle).note (.ioError .x3 e)).emit (.decDone (.ioError e))

/-- `ENCODE` completes: status `OK`, no result value (R85). -/
def State.encodeDone (s : State) : State := (s.setEncState .idle).emit (.encDone .ok)

/-- `DECODE` completes with a value: status `OK` (R103). -/
def State.decodeDone (s : State) (v : Value) : State := (s.setDecState .idle).emit (.decDone (.ok v))

/-! ### The stream accesses (R34, R35, R36) -/

/-- The content after a successful write: all bytes appended, contiguous (R35).  Undefined content stays
undefined. -/
def Sink.append : Sink → List Byte → Sink
  | .clean c, bs => .clean (c ++ bs)
  | .poisoned, _ => .poisoned

/-- The sink's content becomes undefined, and the record says so (R35, R36, R26). -/
def State.poisonSink (s : State) : State := (s.setSnk .poisoned).note .sinkPoisoned

/-- How many of `n` bytes asked for a read that failed or was abandoned has consumed when `avail` were
there: "`0 <= c <= min(n, avail)`, a draw of the environment" (R36). -/
def State.failedConsumption (s : State) (n avail : Nat) : Nat :=
  Config.failedReadDraw s.draws % (min n avail + 1)

/-- The source after a read that failed or was abandoned (R36, R161). -/
def State.loseBytes (s : State) (n avail : Nat) : State :=
  (s.consume (s.failedConsumption n avail)).tick

/-- What `MemRead(SRC, n)` comes to: the port `src_data` of a success, or the error information of a
failure, and the state with the reply taken in. -/
inductive ReadResult where
  | ok (data : BitVec 64) (s : State)
  | failed (e : IoErr) (s : State)
  deriving DecidableEq, Repr

/-- `MemRead(SRC, n)` at the reply `r`, where `next` are the bytes the source has from its position on
(R34).  Success only when it has `n` bytes; then they are yielded whole and consumed.  Otherwise failure,
after which the position is that of R36. -/
def memRead (n : Nat) (next : List Byte) (r : SourceReply) (s : State) : ReadResult :=
  match r with
  | .yield upper =>
    if n ≤ next.length then
      .ok (srcLanes (next.take n) upper) ((s.consume n).emit (.srcOk (srcLanes (next.take n) upper)))
    else .failed Config.endOfInput ((s.loseBytes n next.length).emit (.srcErr Config.endOfInput))
  | .err e => .failed e ((s.loseBytes n next.length).emit (.srcErr e))

/-- `MemWrite(SNK, |bs|, LE(bs))` at a reply `snk_ok` (R35). -/
def memWrite (bs : List Byte) (s : State) : State := (s.setSnk (s.snk.append bs)).emit .snkOk

/-! ### Reset (R160, R161, R25) -/

/-- ENC at `rst`: idle, the latch unspecified; a write request under way leaves the sink undefined. -/
def resetEnc (s : State) : State :=
  let s' := match s.encState with
    | .idle => s
    | .write => s.poisonSink
  (s'.setEncState .idle).setEncV (Config.freeEncV s.draws)

/-- DEC at `rst`: idle, the latch unspecified; a read request under way may have consumed "between 0 and its
full count" (R161) of the bytes there are (R36). -/
def resetDec (s : State) : State :=
  let s' := match s.decState with
    | .idle => s.tick
    | .rdPrefix => s.loseBytes 1 s.src.rest.length
    | .rdRest => s.loseBytes (prefixLen s.decPrefix - 1) s.src.rest.length
  (s'.setDecState .idle).setDecPrefix (Config.freeDecPrefix s.draws)

/-- The event `rst`: both units, no completion event (R160). -/
def resetEvent (s : State) : State := resetDec (resetEnc (s.emit .rst))

/-! ### What runs next -/

/-- The instruction a request runs: for `dec_req` the WIRE form that stands at the source's position, told
by its first byte (R59, R99), and the bare `DECODE` when the source holds no whole Encoding there. -/
def fetched (r : Request) (s : State) : Instr :=
  match r with
  | .bwcValue _ => decodeRequest r
  | .encReq _ => decodeRequest r
  | .decReq =>
    match decodeBytes s.src.rest with
    | .ok (i, _) => i
    | .error _ => decodeRequest r

/-- The source with `bs` standing at its position. -/
def Source.place (s : Source) (bs : List Byte) : Source :=
  { s with content :=
      s.content.take s.pos ++ List.replicate (s.pos - s.content.length) 0 ++ bs ++
        s.content.drop (s.pos + bs.length) }

/-- An instruction of the WIRE rows is put where DEC reads, and DEC is asked to decode next. -/
def placeEncoding (s : State) (bs : List Byte) : State :=
  { s with src := s.src.place bs, inputs := .request .decReq :: s.inputs }

end Sys2Proof.Machine
end

