-- ==== Sys2Proof/Machine/Bitwidth.lean ====
section
/-! DEFINITION. The unit BWC (bitwidth_computer): SIZE_OF. -/

namespace Sys2Proof.Machine

/-- `SIZE_OF v -> r` (R74): `bwc_value` shows `v`; the result is the port `bwc_len`, `State.bwcLen` of the
next state.  No stream, no event, no failure (R18, R30). -/
def execSizeOf (v : Value) (s : State) : Host.Outcome State Fault Refusal :=
  .next (s.setBwcValue v)

end Sys2Proof.Machine
end

