-- ==== Sys2Proof/Machine/Decoder.lean ====
section
/-! DEFINITION. The unit DEC (varint_decoder): its request step, its reply steps, and DECODE.  `next` is what the source has from its position on. -/

namespace Sys2Proof.Machine

/-- The request step of DEC (R102): one byte is asked for. -/
def decRequest (s : State) : State :=
  ((s.emit .decReq).setDecState .rdPrefix).emit (.srcReq 1)

/-- The reply step in `RD_REST` (R103): the value from the latched prefix byte and `src_data`, or X3. -/
def decReplyRest (next : List Byte) (r : SourceReply) (s : State) : State :=
  match memRead (prefixLen s.decPrefix - 1) next r s with
  | .ok d s' => s'.decodeDone (restValue s.decPrefix d)
  | .failed e s' => s'.raiseIoFailure .x3 e

/-- After the prefix byte `p` of a longer Encoding: it is latched and the other `n - 1` bytes are asked for
(R103, R98). -/
def decAskRest (p : Byte) (s : State) : State :=
  ((s.setDecPrefix p).setDecState .rdRest).emit (.srcReq (BitVec.ofNat 4 (prefixLen p - 1)))

/-- The reply step in `RD_PREFIX` (R103): a one-byte Encoding completes; a longer one asks for the rest, and
goes on if the source answers promptly; a failure is X2. -/
def decReplyPrefix (next : List Byte) (r : SourceReply) (s : State) : State :=
  match memRead 1 next r s with
  | .ok d s' =>
    let p := srcLane d 0
    if prefixLen p = 1 then s'.decodeDone (shortValue p)
    else (decAskRest p s').withSrcAnswer (decReplyRest (next.drop 1))
  | .failed e s' => s'.raiseIoFailure .x2 e

/-- One decode of what the source has, `next`: refused while DEC is busy (R164); otherwise the request step
and the reply steps as far as the source answers promptly (R99, R104). -/
def decodeFrom (next : List Byte) (s : State) : Host.Outcome State Fault Refusal :=
  match s.decState with
  | .idle => .next ((decRequest s).withSrcAnswer (decReplyPrefix next))
  | .rdPrefix => .refused .decBusy
  | .rdRest => .refused .decBusy

/-- `DECODE -> r` (R99): DEC decodes what its source has at its position. -/
def execDecode (s : State) : Host.Outcome State Fault Refusal := decodeFrom s.src.rest s

end Sys2Proof.Machine
end

