-- ==== Sys2Proof/Machine/Encoder.lean ====
section
/-! DEFINITION. The unit ENC (varint_encoder): its request step, its reply step, and ENCODE. -/

namespace Sys2Proof.Machine

/-- The request step of ENC (R84): the operand is sampled and one write request issued. -/
def encRequest (v : Value) (s : State) : State :=
  (((s.emit (.encReq v)).setEncV v).setEncState .write).emit (.snkReq (snkLen v) (snkData v))

/-- The reply step of ENC (R85). -/
def encReply (r : SinkReply) (s : State) : State :=
  match r with
  | .ok => (memWrite (encBytes s.encV) s).encodeDone
  | .err e => ((s.emit (.snkErr e)).poisonSink).raiseIoFailure .x1 e

/-- `ENCODE v` (R83): refused while ENC is busy (R164) or the sink is poisoned (R166); otherwise the request
step and, if the sink answers promptly, the reply step (R86). -/
def execEncode (v : Value) (s : State) : Host.Outcome State Fault Refusal :=
  match s.encState with
  | .write => .refused .encBusy
  | .idle =>
    match s.snk with
    | .poisoned => .refused .poisonedSink
    | .clean _ => .next ((encRequest v s).withSnkAnswer encReply)

end Sys2Proof.Machine
end

