-- ==== Sys2Proof/Machine/Wire.lean ====
section
/-! DEFINITION. The WIRE forms L1 to L9: what DEC does on an Encoding of each length class (R54 to R58, R99, R106).  The bytes of the form are what the source has at its position (log 7). -/

namespace Sys2Proof.Machine

/-- An Encoding of class L1: one byte, 7 payload bits (R55). -/
def execL1 (payload : Value) (s : State) : Host.Outcome State Fault Refusal :=
  decodeFrom (wireBytes 1 payload) s

/-- An Encoding of class L2: two bytes, 14 payload bits (R55). -/
def execL2 (payload : Value) (s : State) : Host.Outcome State Fault Refusal :=
  decodeFrom (wireBytes 2 payload) s

/-- An Encoding of class L3: three bytes, 21 payload bits (R55). -/
def execL3 (payload : Value) (s : State) : Host.Outcome State Fault Refusal :=
  decodeFrom (wireBytes 3 payload) s

/-- An Encoding of class L4: four bytes, 28 payload bits (R55). -/
def execL4 (payload : Value) (s : State) : Host.Outcome State Fault Refusal :=
  decodeFrom (wireBytes 4 payload) s

/-- An Encoding of class L5: five bytes, 35 payload bits (R55). -/
def execL5 (payload : Value) (s : State) : Host.Outcome State Fault Refusal :=
  decodeFrom (wireBytes 5 payload) s

/-- An Encoding of class L6: six bytes, 42 payload bits (R55). -/
def execL6 (payload : Value) (s : State) : Host.Outcome State Fault Refusal :=
  decodeFrom (wireBytes 6 payload) s

/-- An Encoding of class L7: seven bytes, 49 payload bits (R55). -/
def execL7 (payload : Value) (s : State) : Host.Outcome State Fault Refusal :=
  decodeFrom (wireBytes 7 payload) s

/-- An Encoding of class L8: eight bytes, 56 payload bits (R55). -/
def execL8 (payload : Value) (s : State) : Host.Outcome State Fault Refusal :=
  decodeFrom (wireBytes 8 payload) s

/-- An Encoding of class L9: nine bytes, 64 payload bits (R56). -/
def execL9 (payload : Value) (s : State) : Host.Outcome State Fault Refusal :=
  decodeFrom (wireBytes 9 payload) s

end Sys2Proof.Machine
end

