-- ==== Sys2Proof/Machine/Dispatch.lean ====
section
/-! DEFINITION. One arm per instruction: which meaning it has. -/

namespace Sys2Proof.Machine

/-- What an instruction does. -/
def exec (i : Instr) (s : State) : Host.Outcome State Fault Refusal :=
  match i with
  -- the WIRE forms, on DEC
  | .l1 payload => Sys2Proof.Machine.execL1 payload s
  | .l2 payload => Sys2Proof.Machine.execL2 payload s
  | .l3 payload => Sys2Proof.Machine.execL3 payload s
  | .l4 payload => Sys2Proof.Machine.execL4 payload s
  | .l5 payload => Sys2Proof.Machine.execL5 payload s
  | .l6 payload => Sys2Proof.Machine.execL6 payload s
  | .l7 payload => Sys2Proof.Machine.execL7 payload s
  | .l8 payload => Sys2Proof.Machine.execL8 payload s
  | .l9 payload => Sys2Proof.Machine.execL9 payload s
  -- the operations
  | .sizeOf v => Sys2Proof.Machine.execSizeOf v s
  | .encode v => Sys2Proof.Machine.execEncode v s
  | .decode => Sys2Proof.Machine.execDecode s

end Sys2Proof.Machine
end

