-- ==== Sys2Proof/Machine/Events.lean ====
section
/-! DEFINITION. The events of the environment that are no requests: late replies, reset, and another user of a stream. -/

namespace Sys2Proof.Machine

/-- The sink answers late (R85); an answer nobody asked for has no move (R173). -/
def sinkReplyEvent (r : SinkReply) (s : State) : Host.Outcome State Fault Refusal :=
  match s.encState with
  | .idle => .fault .unawaitedSinkReply
  | .write => .next (encReply r s)

/-- The source answers late (R103); an answer nobody asked for has no move (R173). -/
def sourceReplyEvent (r : SourceReply) (s : State) : Host.Outcome State Fault Refusal :=
  match s.decState with
  | .idle => .fault .unawaitedSourceReply
  | .rdPrefix => .next (decReplyPrefix s.src.rest r s)
  | .rdRest => .next (decReplyRest s.src.rest r s)

/-- The event `rst` (R160). -/
def rstEvent (s : State) : Host.Outcome State Fault Refusal := .next (resetEvent s)

/-- Another agent uses the sink: the model refuses such a run (R165). -/
def otherSinkUserEvent : Host.Outcome State Fault Refusal := .refused .sharedSink

/-- Another agent uses the source: the model refuses such a run (R165). -/
def otherSourceUserEvent : Host.Outcome State Fault Refusal := .refused .sharedSource

end Sys2Proof.Machine
end

