-- ==== Sys2Proof/Machine/Step.lean ====
section
/-! DEFINITION. One step of the machine: the next event of the environment. -/

namespace Sys2Proof.Machine

/-- One step takes in the environment's next event; a request runs the instruction it fetches.  Without an
event nothing happens: an idle unit "has no enabled step until a request arrives" (R152) and a waiting one
stays where it is, "for ever" (R168). -/
def step (s : State) : Host.Outcome State Fault Refusal :=
  match s.inputs with
  | [] => .next s
  | .request r :: l => exec (fetched r (s.setInputs l)) (s.setInputs l)
  | .sinkReply r :: l => sinkReplyEvent r (s.setInputs l)
  | .sourceReply r :: l => sourceReplyEvent r (s.setInputs l)
  | .rst :: l => rstEvent (s.setInputs l)
  | .otherSinkUser :: _ => otherSinkUserEvent
  | .otherSourceUser :: _ => otherSourceUserEvent

/-- `s` with the instruction whose bits are `w` standing where the next step fetches: its bytes at the
source's position and a `dec_req` as the next event (log 9). -/
def State.withFetchWord (s : State) (nbits w : Nat) : State :=
  placeEncoding s (bytesLE 9 (w % 2 ^ nbits))

end Sys2Proof.Machine
end

