-- ==== Sys2Proof/Safety.lean ====
section
/-! DEFINITION. What counts as a safe run: the launch premises of R163, the end of a run, and the invariant of the machine. -/

namespace Sys2Proof.Machine

/-! ### Launch premises (70_reset_and_hazards.md R163) -/

/-- `UnitsIdle`. -/
def UnitsIdle (s : State) : Prop := s.encState = .idle ∧ s.decState = .idle

/-- `NoFaultRecorded`. -/
def NoFaultRecorded (s : State) : Prop := s.record = []

/-- `SinkClean`: not poisoned, with a known content. -/
def SinkClean (content : List Byte) (s : State) : Prop := s.snk = .clean content

/-- `SourceAtBoundary`: the position is 0 or just after a complete Encoding, and the content from the position
on is `ahead`, what the claim says it is. -/
def SourceAtBoundary (ahead : List Byte) (s : State) : Prop :=
  s.src.pos ≤ s.src.content.length ∧ s.src.rest = ahead ∧
    (s.src.pos = 0 ∨ ∃ before enc, accepted enc = true ∧ s.src.content.take s.src.pos = before ++ enc)

/-- `ExclusiveStreams`: no other agent uses a stream among the events to come. -/
def ExclusiveStreams (s : State) : Prop :=
  Input.otherSinkUser ∉ s.inputs ∧ Input.otherSourceUser ∉ s.inputs

/-! ### The environment's next answers, and reading the port events -/

/-- The sink accepts the next write request at once: its next answer is `snk_ok`, or it is the simple sink
(R35). -/
def SinkAccepts (s : State) : Prop := s.snkAnswers.headD (some .ok) = some .ok

/-- The source yields at the next `k` read requests, as far as it has the bytes: its next `k` answers are
successes, or it is the simple source (R34). -/
def SourceYields (k : Nat) (s : State) : Prop :=
  ∀ a ∈ s.srcAnswers.take k, ∃ upper, a = some (.yield upper)

/-- The port events of `t` that `s` does not have yet, when `t` comes after `s`. -/
def newEvents (s t : State) : List PortEvent := t.trace.drop s.trace.length

/-- The byte count of a write request (`snk_len`). -/
def PortEvent.writeCount : PortEvent → Option Nat
  | .snkReq len _ => some len.toNat
  | _ => none

/-- The byte count of a read request (`src_count`). -/
def PortEvent.readCount : PortEvent → Option Nat
  | .srcReq count => some count.toNat
  | _ => none

/-- The outcome that a completion of ENC carries. -/
def PortEvent.encOutcome : PortEvent → Option EncResult
  | .encDone r => some r
  | _ => none

/-- The outcome that a completion of DEC carries. -/
def PortEvent.decOutcome : PortEvent → Option DecResult
  | .decDone r => some r
  | _ => none

/-! ### Answers, the end of a run, and a stuck unit (R163, R168, R172) -/

/-- What becomes of a write request at a port event: `true`, the sink answers it with success or failure;
`false`, `rst` withdraws it (R160). -/
def PortEvent.sinkAnswer : PortEvent → Option Bool
  | .snkOk => some true
  | .snkErr _ => some true
  | .rst => some false
  | _ => none

/-- What becomes of a read request at a port event: `true`, the source answers it; `false`, `rst` withdraws it. -/
def PortEvent.sourceAnswer : PortEvent → Option Bool
  | .srcOk _ => some true
  | .srcErr _ => some true
  | .rst => some false
  | _ => none

/-- `EnvAnswers`: "every request emitted is eventually answered with success or failure" (R163, R168).  A
request answered in the step that emits it leaves no unit waiting; so, of every state of the run in which a
unit waits, the run goes on to one in which its request was answered, be it by a late reply. -/
def EnvAnswers (s : State) : Prop :=
  ∀ (k : Nat) (t : State), Host.Core.run core k s = .next t →
    (t.encState ≠ .idle → ∃ (m : Nat) (u : State), Host.Core.run core m t = .next u ∧
      ((newEvents t u).filterMap PortEvent.sinkAnswer).head? = some true) ∧
    (t.decState ≠ .idle → ∃ (m : Nat) (u : State), Host.Core.run core m t = .next u ∧
      ((newEvents t u).filterMap PortEvent.sourceAnswer).head? = some true)

/-- The operation `ENCODE` in a script (R63). -/
def Input.isEncode : Input → Bool
  | .request (.encReq _) => true
  | _ => false

/-- The operation `DECODE` in a script. -/
def Input.isDecode : Input → Bool
  | .request .decReq => true
  | _ => false

/-- The run launched in `s` has ended in `t`: "every operation of the script has delivered its completion event
and both units are `IDLE`" (R172).  The script is the requests to come in `s`.  A unit performs one operation at a
time (R164), so all have completed when each unit has delivered as many completions as it has operations; a
`SIZE_OF` has none (R18) and is performed when it is issued.  An operation that `rst` abandons delivers none
(R161), and a refused request leads to no state `t`. -/
structure RunEnded (s t : State) : Prop where
  reached : ∃ k, Host.Core.run core k s = .next t
  allIssued : ∀ r, Input.request r ∉ t.inputs
  encodesCompleted :
    ((newEvents s t).filterMap PortEvent.encOutcome).length = s.inputs.countP Input.isEncode
  decodesCompleted :
    ((newEvents s t).filterMap PortEvent.decOutcome).length = s.inputs.countP Input.isDecode
  unitsIdle : UnitsIdle t

/-- A unit waits for a reply and no event is to come (R168): neither final nor a fault. -/
def Stuck (s : State) : Prop := s.inputs = [] ∧ ¬ UnitsIdle s

/-! ### The invariant -/

/-- The error information of a completion with `IO_ERROR` (R137). -/
def PortEvent.failure : PortEvent → Option IoErr
  | .encDone r => r.errInfo
  | .decDone r => r.errInfo
  | _ => none

/-- The error information of an entry of the record (R26). -/
def FaultEntry.failure : FaultEntry → Option IoErr
  | .ioError _ e => some e
  | .sinkPoisoned => none

/-- What holds in every state a run reaches. -/
structure Inv (s : State) : Prop where
  /-- `0 <= src.pos <= |src.content|` (R23). -/
  posInContent : s.src.pos ≤ s.src.content.length
  /-- A write request is under way only to a sink that is not poisoned (R35, R166). -/
  writeToCleanSink : s.encState = .write → s.snk.isPoisoned = false
  /-- A second read is under way only for an Encoding of two bytes or more (R98). -/
  restIsLonger : s.decState = .rdRest → 2 ≤ prefixLen s.decPrefix
  /-- The latched prefix byte is the byte of the source consumed last (R22, R103). -/
  prefixIsConsumed : s.decState = .rdRest →
    1 ≤ s.src.pos ∧ s.src.content[s.src.pos - 1]? = some s.decPrefix
  /-- The record has every poisoning of the sink (R26). -/
  poisonRecorded : s.snk = .poisoned → FaultEntry.sinkPoisoned ∈ s.record
  /-- The record has exactly the `IO_ERROR` completions that were delivered, in their order (R26). -/
  failuresRecorded :
    s.trace.filterMap PortEvent.failure = s.record.filterMap FaultEntry.failure

end Sys2Proof.Machine
end

