-- ==== Sys2Proof/Certificates/Slice0/Obligations.lean ====
section
/-! DEFINITION. The statements for the provers, from the numbered rules of the spec. -/

open Sys2Proof Sys2Proof.Machine

/-! ### The wire format and the selection of operations -/

/-- Words written out from the pattern strings of R55 and R56 and the vectors of 95_test_vectors.md decode to
the forms they stand for.
That a word of no bits decodes to nothing is the model's choice (log 9). -/
def Obligations.TableWordsDecodeToTheirForms : Prop :=
  decodeTableWord 8 0xFF = some (.l1 127) ∧
  decodeTableWord 16 0x04B2 = some (.l2 300) ∧
  decodeTableWord 24 0x7A1204 = some (.l3 1000000) ∧
  decodeTableWord 40 0x1BD5B7DDF0 = some (.l5 0xDEADBEEF) ∧
  decodeTableWord 64 0xFEDCBA9876543280 = some (.l8 0xFEDCBA98765432) ∧
  decodeTableWord 72 0x123456789ABCDEF00 = some (.l9 0x123456789ABCDEF) ∧
  decodeTableWord 0 0 = none

/-- R62: the port that receives the request selects the operation, and every operand is legal. -/
def Obligations.PortSelectsTheOperation : Prop :=
  ∀ v : Value,
    decode (.port (.bwcValue v)) = .ok (.sizeOf v) ∧
    decode (.port (.encReq v)) = .ok (.encode v) ∧
    decode (.port .decReq) = .ok .decode ∧
    (Instr.sizeOf v).wellFormed = true ∧ (Instr.encode v).wellFormed = true

/-- R53: every byte is in exactly one row of the table, the row of its `PrefixLen = Tz8 + 1`, and the rows
hold 128, 64, 32, 16, 8, 4, 2, 1 and 1 byte values. -/
def Obligations.EveryPrefixByteHasOneRow : Prop :=
  (∀ b : Byte, (wireRows.filter (·.has b)).map (·.len) = [prefixLen b] ∧ prefixLen b = tz8 b + 1) ∧
  wireRows.map (fun r => ((List.range 256).map (BitVec.ofNat 8)).countP r.has) =
    [128, 64, 32, 16, 8, 4, 2, 1, 1]

/-- R52: `Tz8` is 8 on 0 and otherwise the least position that holds a 1; equivalently the run of zeros
below it; its range is exactly 0..8. -/
def Obligations.TrailingZerosAreCounted : Prop :=
  (∀ b : Byte,
    (b = 0 → tz8 b = 8) ∧
    (b ≠ 0 → tz8 b ≤ 7 ∧ b.getLsbD (tz8 b) = true ∧ ∀ j, j < tz8 b → b.getLsbD j = false) ∧
    ∀ z, z ≤ 8 → (tz8 b = z ↔ b.toNat % 2 ^ z = 0 ∧ (z = 8 ∨ b.getLsbD z = true))) ∧
  ∀ z, z ≤ 8 → ∃ b : Byte, tz8 b = z

/-- Decoding the code of a well-formed instruction gives it back, for all twelve rows and every operand
(R55, R56, R62). -/
def Obligations.DecodeOfEncodeIsTheInstruction : Prop :=
  ∀ i : Instr, i.wellFormed = true → decode (encode i) = .ok i

/-- What the decoder reads from bytes is well formed, a WIRE form, and its code is exactly the bytes that
were read: an accepted sequence at the front (R55, R56, R60). -/
def Obligations.EncodeOfDecodeIsTheBytesRead : Prop :=
  ∀ (bs tail : List Byte) (i : Instr), decodeBytes bs = .ok (i, tail) →
    i.wellFormed = true ∧ ∃ es, encode i = .wire es ∧ accepted es = true ∧ bs = es ++ tail

/-- No byte value is illegal: the decoder gives no instruction only when there are fewer bytes than the first
one declares (R60, R59). -/
def Obligations.OnlyMissingBytesAreUndecodable : Prop :=
  ∀ bs : List Byte,
    (∃ i tail, decodeBytes bs = .ok (i, tail)) ↔ ∃ p rest, bs = p :: rest ∧ prefixLen p ≤ bs.length

/-- The format is a prefix code, so a concatenation of Encodings splits in one way (R61). -/
def Obligations.EncodingsSplitInOneWay : Prop :=
  (∀ as bs : List Byte, accepted as = true → accepted bs = true → as <+: bs → as = bs) ∧
  ∀ as bs : List (List Byte), (∀ a ∈ as, accepted a = true) → (∀ b ∈ bs, accepted b = true) →
    as.flatten = bs.flatten → as = bs

/-- R60 point 4: an accepted sequence is canonical iff its length is `NumBytes` of its value; a one-byte one
always, one of 2 to 8 bytes iff its last byte is at least 2, one of 9 bytes iff its last byte is not 0. -/
def Obligations.CanonicalIsToldByTheLastByte : Prop :=
  ∀ bs : List Byte, accepted bs = true →
    (canonical bs = true ↔ numBytes (decValue bs) = bs.length) ∧
    (bs.length = 1 → canonical bs = true) ∧
    (2 ≤ bs.length → bs.length ≤ 8 →
      (canonical bs = true ↔ 2 ^ (7 * (bs.length - 1)) ≤ (decValue bs).toNat) ∧
      (canonical bs = true ↔ ∃ b, bs.getLast? = some b ∧ 2 ≤ b.toNat)) ∧
    (bs.length = 9 →
      (canonical bs = true ↔ 2 ^ 56 ≤ (decValue bs).toNat) ∧
      (canonical bs = true ↔ ∃ b, bs.getLast? = some b ∧ b ≠ 0))

/-! ### SIZE_OF -/

/-- R70: `Bits(0) = 1`, and for `v >= 1` the unique `b` in 1..64 with `2^(b-1) <= v < 2^b`, one more than the
index of the most significant 1 bit; every value 1..64 is taken. -/
def Obligations.BitsCountsSignificantBits : Prop :=
  (∀ v : Value, 1 ≤ bits v ∧ bits v ≤ 64) ∧
  bits 0 = 1 ∧ bits 1 = 1 ∧
  (∀ v : Value, v ≠ 0 →
    2 ^ (bits v - 1) ≤ v.toNat ∧ v.toNat < 2 ^ bits v ∧
    (∀ b, 1 ≤ b → 2 ^ (b - 1) ≤ v.toNat → v.toNat < 2 ^ b → b = bits v) ∧
    v.getLsbD (bits v - 1) = true ∧ ∀ j, bits v ≤ j → v.getLsbD j = false) ∧
  ∀ b, 1 ≤ b → b ≤ 64 → ∃ v : Value, bits v = b

/-- R72: `NumBytes(v)` is the least `k` in 1..8 with `v < 2^(7k)`, and 9 when there is none, that is when
`v >= 2^56`; `Bits(v) <= 7k` iff `v < 2^(7k)`. -/
def Obligations.NumBytesIsTheLeastThreshold : Prop :=
  ∀ v : Value,
    1 ≤ numBytes v ∧ numBytes v ≤ 9 ∧
    (∀ k, 1 ≤ k → k ≤ 8 → (numBytes v ≤ k ↔ v.toNat < 2 ^ (7 * k))) ∧
    (numBytes v = 9 ↔ 2 ^ 56 ≤ v.toNat) ∧
    ∀ k, 1 ≤ k → k ≤ 8 → (bits v ≤ 7 * k ↔ v.toNat < 2 ^ (7 * k))

/-- R75: the comparators `c_k = (v[63:7k] != 0)`, `k = 1..8`, are `v >= 2^(7k)`, are monotone, and
`NumBytes(v) = 1 + c_1 + ... + c_8`. -/
def Obligations.ComparatorsGiveNumBytes : Prop :=
  ∀ v : Value,
    (∀ k, 1 ≤ k → k ≤ 8 → (v >>> (7 * k) ≠ 0 ↔ 2 ^ (7 * k) ≤ v.toNat)) ∧
    (∀ k, 1 ≤ k → k ≤ 7 → v >>> (7 * (k + 1)) ≠ 0 → v >>> (7 * k) ≠ 0) ∧
    numBytes v = 1 + (List.range 8).countP fun k => decide (v >>> (7 * (k + 1)) ≠ 0)

/-- R121: `NumBytes` is non-decreasing; it grows, by 1, exactly at the eight values `2^(7k)`. -/
def Obligations.LengthIsANonDecreasingStepFunction : Prop :=
  (∀ u v : Value, u.toNat ≤ v.toNat → numBytes u ≤ numBytes v) ∧
  ∀ v : Value, v.toNat + 1 < 2 ^ 64 →
    ((∃ k, 1 ≤ k ∧ k ≤ 8 ∧ v.toNat + 1 = 2 ^ (7 * k)) → numBytes (v + 1) = numBytes v + 1) ∧
    ((¬ ∃ k, 1 ≤ k ∧ k ≤ 8 ∧ v.toNat + 1 = 2 ^ (7 * k)) → numBytes (v + 1) = numBytes v)

/-- R74: `SIZE_OF v` completes in every state: `bwc_value` shows `v`, `bwc_len` is `NumBytes(v)` and nothing
else changes, no stream and no event among it; `bwc_len` is `NumBytes(bwc_value)` at all times, "always in 1..9"
(R18); and the corner cases and the worked example of R74. -/
def Obligations.SizeOfShowsTheByteCount : Prop :=
  (∀ (v : Value) (s : State), ∃ t, exec (.sizeOf v) s = .next t ∧
    t = { s with bwcValue := v } ∧ t.bwcLen.toNat = numBytes v) ∧
  (∀ s : State, s.bwcLen.toNat = numBytes s.bwcValue ∧ 1 ≤ s.bwcLen.toNat ∧ s.bwcLen.toNat ≤ 9) ∧
  numBytes 0 = 1 ∧ numBytes 300 = 2 ∧ numBytes 0xFFFFFFFFFFFFFF = 8 ∧ numBytes 0x100000000000000 = 9 ∧
    numBytes 0xFFFFFFFFFFFFFFFF = 9

/-! ### The codec functions and their laws -/

/-- R88, with R80: the closed forms of `EncInt` per class, its bound, and the form the encoding table gives:
the encoder emits the bytes of the WIRE form of its class. -/
def Obligations.EncoderEmitsTheWireFormOfItsClass : Prop :=
  ∀ v : Value,
    encInt v < 2 ^ (8 * numBytes v) ∧
    (numBytes v ≤ 8 → encInt v = v.toNat * 2 ^ numBytes v + 2 ^ (numBytes v - 1)) ∧
    (numBytes v = 9 → encInt v = v.toNat * 2 ^ 8) ∧
    encBytes v = wireBytes (numBytes v) v

/-- R81: the bytes of an Encoding, byte by byte. -/
def Obligations.EncodedBytesHoldTheirSlices : Prop :=
  ∀ v : Value,
    (encBytes v).length = numBytes v ∧
    (∀ i, i < numBytes v → (encBytes v)[i]? = some (BitVec.ofNat 8 (encInt v / 2 ^ (8 * i)))) ∧
    (numBytes v ≤ 7 → (encBytes v)[0]? =
      some (BitVec.ofNat 8 (v.toNat % 2 ^ (8 - numBytes v) * 2 ^ numBytes v + 2 ^ (numBytes v - 1)))) ∧
    (numBytes v = 8 → (encBytes v)[0]? = some 0x80) ∧
    (numBytes v ≤ 8 → ∀ i, 1 ≤ i → i < numBytes v →
      (encBytes v)[i]? = some (BitVec.ofNat 8 (v.toNat / 2 ^ (8 * i - numBytes v)))) ∧
    (numBytes v = 9 → (encBytes v)[0]? = some 0 ∧
      ∀ i, 1 ≤ i → i ≤ 8 → (encBytes v)[i]? = some (BitVec.ofNat 8 (v.toNat / 2 ^ (8 * i - 8))))

/-- R87 and R124: the first byte that the encoder writes tells the length it wrote. -/
def Obligations.PrefixByteTellsTheLength : Prop :=
  ∀ v : Value, ∃ p rest, encBytes v = p :: rest ∧ tz8 p = numBytes v - 1 ∧
    prefixLen p = numBytes v ∧ (encBytes v).length = numBytes v

/-- R120: `EncBytes(v)` has `NumBytes(v)` bytes, and the one write request of `ENCODE v` offers as many bytes as
the `bwc_len` that `SIZE_OF v` shows. -/
def Obligations.LengthsAgree : Prop :=
  (∀ v : Value, (encBytes v).length = numBytes v) ∧
  ∀ (v : Value) (s s' t u : State), exec (.encode v) s = .next t → exec (.sizeOf v) s' = .next u →
    (newEvents s t).filterMap PortEvent.writeCount = [u.bwcLen.toNat] ∧
      u.bwcLen.toNat = (encBytes v).length

/-- The exact form of the round trip of R119 on Values: for every Value, decoding its Encoding gives it
back. -/
def Obligations.DecodingAnEncodingGivesTheValue : Prop :=
  ∀ v : Value, accepted (encBytes v) = true ∧ decValue (encBytes v) = v

/-- R122: the encoder's output is the shortest accepted sequence that decodes to its Value. -/
def Obligations.EncodingsAreMinimal : Prop :=
  (∀ v : Value, (encBytes v).length = numBytes v) ∧
  ∀ bs : List Byte, accepted bs = true → numBytes (decValue bs) ≤ bs.length

/-- R123: Encodings of distinct Values are distinct; a sequence has one length and one value; the canonical
Encoding of a Value is unique; decoding is not injective on all accepted sequences. -/
def Obligations.EncodingsAreUnique : Prop :=
  (∀ u v : Value, encBytes u = encBytes v → u = v) ∧
  (∀ (bs : List Byte) (v : Value), accepted bs = true →
    (canonical bs = true ∧ decValue bs = v ↔ bs = encBytes v)) ∧
  (accepted [0x01] = true ∧ accepted [0x02, 0x00] = true ∧ decValue [0x01] = 0 ∧ decValue [0x02, 0x00] = 0 ∧
    encBytes 0 = [0x01])

/-- R125: re-encoding the value of an accepted sequence gives it back iff it is canonical; the canonical
sequences are exactly what the encoder writes. -/
def Obligations.CanonicalSequencesAreTheFixedPoints : Prop :=
  (∀ bs : List Byte, accepted bs = true → (encBytes (decValue bs) = bs ↔ canonical bs = true)) ∧
  (∀ bs : List Byte, canonical bs = true ↔ ∃ v, bs = encBytes v) ∧
  canonical [0x02, 0x00] = false

/-- R96, R97 and U8: the value DEC forms at its reply steps is `DecValue` of the bytes consumed, whatever the
source drives on the unused lanes; the one-byte shift fills with zeros. -/
def Obligations.ReplyValueIsDecValueOfTheBytes : Prop :=
  (∀ p : Byte, prefixLen p = 1 → shortValue p = decValue [p] ∧ (shortValue p).toNat = p.toNat / 2 ∧
    (shortValue p).toNat < 128) ∧
  ∀ (p : Byte) (rest : List Byte) (upper : BitVec 64), rest.length + 1 = prefixLen p → 2 ≤ prefixLen p →
    restValue p (srcLanes rest upper) = decValue (p :: rest)

/-! ### The stream accesses -/

/-- R34: `MemRead(SRC, n)` succeeds only when `n` bytes are there, yields them whole on its low lanes and
advances by `n`; a failing answer, or too few bytes, fails, and then the position moves as R36 bounds it. -/
def Obligations.SourceReadIsAllOrNothing : Prop :=
  ∀ (n : Nat) (r : SourceReply) (s : State), 1 ≤ n → n ≤ 8 →
    match memRead n s.src.rest r s with
    | .ok d t =>
      n ≤ s.src.rest.length ∧ (∃ upper, r = .yield upper) ∧
        d.toNat % 2 ^ (8 * n) = le (s.src.rest.take n) ∧
        t = { s with src := { s.src with pos := s.src.pos + n }, trace := s.trace ++ [.srcOk d] }
    | .failed e t =>
      (r = .err e ∨ s.src.rest.length < n ∧ e = Config.endOfInput) ∧
        ∃ c d, c ≤ min n s.src.rest.length ∧
          t = { s with
            src := { s.src with pos := s.src.pos + c }, trace := s.trace ++ [.srcErr e], draws := d }

/-! ### ENCODE -/

/-- R83, R86: on a clean sink that accepts, `ENCODE v` completes `OK`: the sink's content grows by exactly
`EncBytes(v)`, one write request is issued, and nothing else changes but ENC's operand latch. -/
def Obligations.EncodeAppendsItsEncoding : Prop :=
  ∀ (v : Value) (s : State) (content : List Byte),
    s.encState = .idle → s.snk = .clean content → SinkAccepts s →
    exec (.encode v) s = .next { s with
      encV := v
      snk := .clean (content ++ encBytes v)
      snkAnswers := s.snkAnswers.tail
      trace := s.trace ++ [.encReq v, .snkReq (snkLen v) (snkData v), .snkOk, .encDone .ok] }

/-- R136 X1, R141, R35: when the sink answers with failure, `ENCODE v` completes with `IO_ERROR` and `e`
unchanged, ENC is idle again, the sink is poisoned and its content has no value; nothing else changes.
The form of the record's entries is the model's choice (log 10). -/
def Obligations.EncodeFailurePoisonsTheSink : Prop :=
  ∀ (v : Value) (s : State) (content : List Byte) (e : IoErr) (l : List (Option SinkReply)),
    s.encState = .idle → s.snk = .clean content → s.snkAnswers = some (.err e) :: l →
    exec (.encode v) s = .next { s with
      encV := v
      snk := .poisoned
      snkAnswers := l
      record := s.record ++ [.sinkPoisoned, .ioError .x1 e]
      trace := s.trace ++
        [.encReq v, .snkReq (snkLen v) (snkData v), .snkErr e, .encDone (.ioError e)] }

/-- R84: the request step of ENC: operand latched, phase `WRITE`, one write request with the length and the
Encoding on its lanes, upper lanes zero; a request to a busy ENC has no step.
That a busy ENC is refused as busy also where the sink is poisoned is the model's order of the two refusals (log 14). -/
def Obligations.EncRequestStepIssuesTheWrite : Prop :=
  ∀ (v : Value) (s : State),
    (∀ (content : List Byte) (l : List (Option SinkReply)),
      s.encState = .idle → s.snk = .clean content → s.snkAnswers = none :: l →
      ∃ t, exec (.encode v) s = .next t ∧
        t = { s with
          encV := v
          encState := .write
          snkAnswers := l
          trace := s.trace ++ [.encReq v, .snkReq (snkLen v) (snkData v)] } ∧
        t.pendingSnkReq = some (snkLen v, snkData v)) ∧
    (snkLen v).toNat = numBytes v ∧ (snkData v).toNat = encInt v ∧
    (∀ i, numBytes v ≤ i → i ≤ 8 → (snkData v).extractLsb' (8 * i) 8 = 0) ∧
    (s.encState = .write → exec (.encode v) s = .refused .encBusy)

/-- R166: the model refuses a write to a poisoned sink. -/
def Obligations.EncodeToAPoisonedSinkIsRefused : Prop :=
  ∀ (v : Value) (s : State), s.encState = .idle → s.snk = .poisoned →
    exec (.encode v) s = .refused .poisonedSink

/-- R85: the reply step of ENC, at a late answer; without one ENC stays in `WRITE`.
The form of the record's entries and of a wait without events is the model's choice (log 10, log 4). -/
def Obligations.LateSinkReplyCompletesEncode : Prop :=
  ∀ (s : State) (content : List Byte) (l : List Input), s.encState = .write → s.snk = .clean content →
    (s.inputs = .sinkReply .ok :: l → step s = .next { s with
      inputs := l
      encState := .idle
      snk := .clean (content ++ encBytes s.encV)
      trace := s.trace ++ [.snkOk, .encDone .ok] }) ∧
    (∀ e, s.inputs = .sinkReply (.err e) :: l → step s = .next { s with
      inputs := l
      encState := .idle
      snk := .poisoned
      record := s.record ++ [.sinkPoisoned, .ioError .x1 e]
      trace := s.trace ++ [.snkErr e, .encDone (.ioError e)] }) ∧
    (s.inputs = [] → step s = .next s)

/-- R86: `ENCODE` with a prompt answer is the request step followed by the reply step with that answer. -/
def Obligations.EncodeOneStepIsItsTwoSteps : Prop :=
  ∀ (v : Value) (s t : State) (r : SinkReply) (l : List (Option SinkReply)),
    exec (.encode v) { s with snkAnswers := none :: l } = .next t →
    sinkReplyEvent r t = exec (.encode v) { s with snkAnswers := some r :: l }

/-- The frame of `ENCODE` (R83, R11, R30): whatever the sink answers, DEC, the source, BWC and the rest of
the environment are untouched; while the sink is clean afterwards, every byte of it outside the `NumBytes(v)`
places from its old end on reads as before; exactly one write request is issued. -/
def Obligations.EncodeFrame : Prop :=
  ∀ (v : Value) (s t : State), exec (.encode v) s = .next t →
    t.decState = s.decState ∧ t.decPrefix = s.decPrefix ∧ t.bwcValue = s.bwcValue ∧ t.src = s.src ∧
    t.inputs = s.inputs ∧ t.srcAnswers = s.srcAnswers ∧ t.draws = s.draws ∧ t.encV = v ∧
    (∀ content k, s.snk = .clean content → t.snk.isPoisoned = false →
      (k < content.length ∨ content.length + numBytes v ≤ k) → t.snk.byteAt k = s.snk.byteAt k) ∧
    s.trace <+: t.trace ∧ s.record <+: t.record ∧
    (newEvents s t).filterMap PortEvent.writeCount = [numBytes v] ∧
    (newEvents s t).filterMap PortEvent.readCount = []

/-! ### DECODE and the WIRE forms -/

/-- R99, R100: when an accepted sequence stands at the source's position and the source yields, `DECODE`
completes `OK` with its `DecValue`, having consumed exactly its bytes with the reads of R98; nothing else
changes but DEC's latch. -/
def Obligations.DecodeDeliversTheValueAndConsumesIt : Prop :=
  ∀ (s : State) (p : Byte) (more tail : List Byte),
    s.decState = .idle → s.src.rest = p :: more ++ tail → accepted (p :: more) = true →
    SourceYields (if more = [] then 1 else 2) s →
    ∃ t events, exec .decode s = .next t ∧
      t = { s with
        src := { s.src with pos := s.src.pos + (p :: more).length }
        decPrefix := if more = [] then s.decPrefix else p
        srcAnswers := s.srcAnswers.drop (if more = [] then 1 else 2)
        trace := s.trace ++ events ++ [.decDone (.ok (decValue (p :: more)))] } ∧
      events.filterMap PortEvent.readCount = (if more = [] then [1] else [1, more.length]) ∧
      events.filterMap PortEvent.decOutcome = []

/-- R55, R56, R99, R106: each WIRE form `L1` .. `L9` with a payload its class can carry completes `OK` with
its payload as the value and its length consumed; nothing else changes but DEC's latch.
That a WIRE form runs as the decode of its Encoding is the model's reading (log 7). -/
def Obligations.WireFormsDeliverTheirPayload : Prop :=
  ∀ (i : Instr) (n : Nat) (payload : Value) (s : State),
    i.wireClass = some (n, payload) → i.wellFormed = true → s.decState = .idle →
    SourceYields (if n = 1 then 1 else 2) s →
    ∃ t events, exec i s = .next t ∧
      t = { s with
        src := { s.src with pos := s.src.pos + n }
        decPrefix := if n = 1 then s.decPrefix else BitVec.ofNat 8 (wireInt n payload)
        srcAnswers := s.srcAnswers.drop (if n = 1 then 1 else 2)
        trace := s.trace ++ events ++ [.decDone (.ok payload)] } ∧
      events.filterMap PortEvent.readCount = (if n = 1 then [1] else [1, n - 1])

/-- `DECODE` at an Encoding is the WIRE form that stands there, whatever the source answers (R99, R59).
That a WIRE form runs at all is the model's reading (log 7). -/
def Obligations.DecodeRunsTheWireFormAtThePosition : Prop :=
  ∀ (s : State) (i : Instr) (tail : List Byte), decodeBytes s.src.rest = .ok (i, tail) →
    exec .decode s = exec i s

/-- R136 X2, R141, R36: when the first read fails, `DECODE` completes with `IO_ERROR` and `e` unchanged and no
value; at most one byte is consumed; one read request is issued.
The form of the record's entry and the drawn number of lost bytes are the model's (log 10, log 6). -/
def Obligations.DecodeFirstReadFailure : Prop :=
  ∀ (s : State) (e : IoErr) (l : List (Option SourceReply)), s.decState = .idle →
    (s.srcAnswers = some (.err e) :: l ∨
      s.src.rest = [] ∧ e = Config.endOfInput ∧
        (s.srcAnswers = [] ∧ l = [] ∨ ∃ upper, s.srcAnswers = some (.yield upper) :: l)) →
    ∃ t c, exec .decode s = .next t ∧ c ≤ min 1 s.src.rest.length ∧
      t = { s with
        src := { s.src with pos := s.src.pos + c }
        srcAnswers := l
        record := s.record ++ [.ioError .x2 e]
        trace := s.trace ++ [.decReq, .srcReq 1, .srcErr e, .decDone (.ioError e)]
        draws := s.draws + 1 }

/-- R136 X3, R141, R36: when the second read fails, `DECODE` completes with `IO_ERROR` and `e` unchanged and no
value; the prefix byte stays consumed and at most the bytes asked for are lost.
The form of the record's entry and the drawn number of lost bytes are the model's (log 10, log 6). -/
def Obligations.DecodeSecondReadFailure : Prop :=
  ∀ (s : State) (e : IoErr) (upper : BitVec 64) (p : Byte) (tail : List Byte) (l : List (Option SourceReply)),
    s.decState = .idle → s.src.rest = p :: tail → 2 ≤ prefixLen p →
    s.srcAnswers = some (.yield upper) :: some (.err e) :: l →
    ∃ t c, exec .decode s = .next t ∧ c ≤ min (prefixLen p - 1) tail.length ∧
      t = { s with
        src := { s.src with pos := s.src.pos + 1 + c }
        decPrefix := p
        srcAnswers := l
        record := s.record ++ [.ioError .x3 e]
        trace := s.trace ++
          [.decReq, .srcReq 1, .srcOk (srcLanes [p] upper), .srcReq (BitVec.ofNat 4 (prefixLen p - 1)),
           .srcErr e, .decDone (.ioError e)]
        draws := s.draws + 1 }

/-- R101, R127: when the source holds fewer bytes than the first one declares, no answer of the environment
makes `DECODE` deliver a value, and with answers that do not wait it completes with `IO_ERROR`; so on every
proper part of an Encoding, and on the empty source. -/
def Obligations.TruncatedInputNeverDeliversAValue : Prop :=
  (∀ s t : State, (∀ p tail, s.src.rest = p :: tail → s.src.rest.length < prefixLen p) →
    exec .decode s = .next t →
    (∀ v, DecResult.ok v ∉ (newEvents s t).filterMap PortEvent.decOutcome) ∧
    (none ∉ s.srcAnswers.take 2 → t.decState = .idle ∧
      ∃ e, (newEvents s t).filterMap PortEvent.decOutcome = [.ioError e])) ∧
  ∀ (v : Value) (j : Nat) (p : Byte) (tail : List Byte), j < numBytes v →
    (encBytes v).take j = p :: tail → ((encBytes v).take j).length < prefixLen p

/-- R104 (and R36, R98, R145): what one `DECODE` can come to, whatever the source answers: `OK` with the value
of the Encoding at its position; a failure of the first read; a failure of the second; or a wait for an
answer, with the prefix byte consumed or not.  Each failure moves the position within its bounds.
The form of the record's entries is the model's choice (log 10), a lost byte's number is drawn (log 6). -/
def Obligations.DecodeOutcomes : Prop :=
  ∀ s t : State, exec .decode s = .next t →
    s.decState = .idle ∧
    ((∃ bs tail, s.src.rest = bs ++ tail ∧ accepted bs = true ∧ t.decState = .idle ∧
        t.src.pos = s.src.pos + bs.length ∧ t.record = s.record ∧
        (newEvents s t).filterMap PortEvent.decOutcome = [.ok (decValue bs)]) ∨
     (∃ e j, j ≤ min 1 s.src.rest.length ∧ t.decState = .idle ∧ t.src.pos = s.src.pos + j ∧
        t.record = s.record ++ [.ioError .x2 e] ∧
        (newEvents s t).filterMap PortEvent.decOutcome = [.ioError e]) ∨
     (∃ e j p tail, s.src.rest = p :: tail ∧ 2 ≤ prefixLen p ∧ 1 ≤ j ∧
        j ≤ min (prefixLen p) s.src.rest.length ∧ t.decState = .idle ∧ t.src.pos = s.src.pos + j ∧
        t.record = s.record ++ [.ioError .x3 e] ∧
        (newEvents s t).filterMap PortEvent.decOutcome = [.ioError e]) ∨
     (t.decState = .rdPrefix ∧ t.src.pos = s.src.pos ∧ t.record = s.record ∧
        (newEvents s t).filterMap PortEvent.decOutcome = []) ∨
     (∃ p tail, s.src.rest = p :: tail ∧ 2 ≤ prefixLen p ∧ t.decState = .rdRest ∧ t.decPrefix = p ∧
        t.src.pos = s.src.pos + 1 ∧ t.record = s.record ∧
        (newEvents s t).filterMap PortEvent.decOutcome = []))

/-- R98: a `DECODE` asks for 1 byte and then at most once more, for the other bytes the prefix byte declares:
never for 0 bytes and never for more than 8. -/
def Obligations.DecodeReadRequests : Prop :=
  ∀ s t : State, exec .decode s = .next t →
    (newEvents s t).filterMap PortEvent.readCount = [1] ∨
    ∃ p tail, s.src.rest = p :: tail ∧ 1 ≤ prefixLen p - 1 ∧ prefixLen p - 1 ≤ 8 ∧
      (newEvents s t).filterMap PortEvent.readCount = [1, prefixLen p - 1]

/-- The frame of `DECODE` and of the WIRE forms `L1` .. `L9` (R99, R11, R30): ENC, the sink, BWC, the rest of
the environment and every byte of the source are untouched; the position only grows.
That `L1` .. `L9` run as the decode of their Encoding is the model's reading (log 7). -/
def Obligations.DecodeFrame : Prop :=
  ∀ (i : Instr) (s t : State), (i = .decode ∨ ∃ n payload, i.wireClass = some (n, payload)) →
    exec i s = .next t →
    t.encState = s.encState ∧ t.encV = s.encV ∧ t.bwcValue = s.bwcValue ∧ t.snk = s.snk ∧
    t.inputs = s.inputs ∧ t.snkAnswers = s.snkAnswers ∧ (∀ k, t.src.byteAt k = s.src.byteAt k) ∧
    t.src.content = s.src.content ∧ s.src.pos ≤ t.src.pos ∧ t.src.pos ≤ s.src.pos + 9 ∧
    s.trace <+: t.trace ∧ s.record <+: t.record ∧
    (newEvents s t).filterMap PortEvent.writeCount = []

/-- R20, U8: what the source drives on the lanes above the bytes it was asked for makes no difference but in
the port event itself. -/
def Obligations.UnusedLanesMakeNoDifference : Prop :=
  ∀ (s : State) (u1 u2 w1 w2 : BitVec 64) (l : List (Option SourceReply)), s.decState = .idle →
    ∃ t t', exec .decode { s with srcAnswers := some (.yield u1) :: some (.yield u2) :: l } = .next t ∧
      exec .decode { s with srcAnswers := some (.yield w1) :: some (.yield w2) :: l } = .next t' ∧
      { t with trace := [], srcAnswers := [] } = { t' with trace := [], srcAnswers := [] } ∧
      t.srcAnswers.length = t'.srcAnswers.length ∧
      t.trace.filterMap PortEvent.decOutcome = t'.trace.filterMap PortEvent.decOutcome

/-- R102: the request step of DEC; a request to a busy DEC has no step, for `DECODE` and every WIRE form
(R164).
That a WIRE form runs as a decode, and so is refused by a busy DEC as `dec_req` is, is the model's reading (log 7). -/
def Obligations.DecRequestStepAsksForOneByte : Prop :=
  ∀ s : State,
    (∀ l, s.decState = .idle → s.srcAnswers = none :: l →
      ∃ t, exec .decode s = .next t ∧
        t = { s with decState := .rdPrefix, srcAnswers := l, trace := s.trace ++ [.decReq, .srcReq 1] } ∧
        t.pendingSrcReq = some 1) ∧
    (s.decState ≠ .idle → exec .decode s = .refused .decBusy ∧
      ∀ i n payload, Instr.wireClass i = some (n, payload) → exec i s = .refused .decBusy)

/-- R103: the reply steps of DEC, at late answers: in `RD_PREFIX` a one-byte Encoding completes and a longer
one asks for the rest; in `RD_REST` the value is delivered; a failure, mandatory where the source has fewer bytes
than asked for (R34), completes with `IO_ERROR`; without an answer DEC stays where it is.
That a step without an event answers the same state is the model's choice (log 4); the form of the record's entry
is log 10's and the drawn number of lost bytes log 6's. -/
def Obligations.LateSourceRepliesDriveDecode : Prop :=
  ∀ (s : State) (l : List Input) (upper : BitVec 64),
    (∀ p tail, s.decState = .rdPrefix → s.src.rest = p :: tail → s.inputs = .sourceReply (.yield upper) :: l →
      (prefixLen p = 1 → step s = .next { s with
        inputs := l
        decState := .idle
        src := { s.src with pos := s.src.pos + 1 }
        trace := s.trace ++ [.srcOk (srcLanes [p] upper), .decDone (.ok (shortValue p))] }) ∧
      (∀ m, 2 ≤ prefixLen p → s.srcAnswers = none :: m → step s = .next { s with
        inputs := l
        decState := .rdRest
        decPrefix := p
        srcAnswers := m
        src := { s.src with pos := s.src.pos + 1 }
        trace := s.trace ++
          [.srcOk (srcLanes [p] upper), .srcReq (BitVec.ofNat 4 (prefixLen p - 1))] })) ∧
    (s.decState = .rdRest → prefixLen s.decPrefix - 1 ≤ s.src.rest.length →
      s.inputs = .sourceReply (.yield upper) :: l →
      ∃ d, d = srcLanes (s.src.rest.take (prefixLen s.decPrefix - 1)) upper ∧ step s = .next { s with
        inputs := l
        decState := .idle
        src := { s.src with pos := s.src.pos + (prefixLen s.decPrefix - 1) }
        trace := s.trace ++ [.srcOk d, .decDone (.ok (restValue s.decPrefix d))] }) ∧
    (∀ e asked, asked = (if s.decState = .rdPrefix then 1 else prefixLen s.decPrefix - 1) → s.decState ≠ .idle →
      (s.inputs = .sourceReply (.err e) :: l ∨
        s.src.rest.length < asked ∧ e = Config.endOfInput ∧ s.inputs = .sourceReply (.yield upper) :: l) →
      ∃ t c, step s = .next t ∧ t.decState = .idle ∧ c ≤ min asked s.src.rest.length ∧
        t.src = { s.src with pos := s.src.pos + c } ∧
        t.record = s.record ++ [.ioError (if s.decState = .rdPrefix then .x2 else .x3) e] ∧
        t.trace = s.trace ++ [.srcErr e, .decDone (.ioError e)]) ∧
    (s.inputs = [] → step s = .next s)

/-- R104: a `DECODE` that waits and is answered late is the `DECODE` that is answered promptly, at the first
read and at the second. -/
def Obligations.DecodeOneStepIsItsSteps : Prop :=
  ∀ (s t : State) (r : SourceReply) (l : List (Option SourceReply)),
    (exec .decode { s with srcAnswers := none :: l } = .next t →
      sourceReplyEvent r t = exec .decode { s with srcAnswers := some r :: l }) ∧
    ∀ (upper : BitVec 64) (p : Byte) (tail : List Byte), s.src.rest = p :: tail → 2 ≤ prefixLen p →
      exec .decode { s with srcAnswers := some (.yield upper) :: none :: l } = .next t →
      sourceReplyEvent r t = exec .decode { s with srcAnswers := some (.yield upper) :: some r :: l }

/-- R137, R142: the status codes; a completion with `IO_ERROR` carries its error information and no value, one
with `OK` no error information. -/
def Obligations.StatusCodesAndNoValueOnFailure : Prop :=
  ∀ (e : IoErr) (v : Value),
    EncResult.ok.status = 0 ∧ (EncResult.ioError e).status = 1 ∧ (EncResult.ioError e).errInfo = some e ∧
    (DecResult.ok v).status = 0 ∧ (DecResult.ok v).value = some v ∧
    (DecResult.ioError e).status = 1 ∧ (DecResult.ioError e).value = none ∧
    (DecResult.ioError e).errInfo = some e

/-! ### Reset -/

/-- R25: the values the spec gives for reset: both units idle, no stream request pending, no completion
delivered; and the record is empty (R163). -/
def Obligations.ResetLeavesTheUnitsIdle : Prop :=
  UnitsIdle State.reset ∧ State.reset.pendingSnkReq = none ∧ State.reset.pendingSrcReq = none ∧
    State.reset.trace = [] ∧ NoFaultRecorded State.reset

/-- R160, R161: the event `rst` takes both units to `IDLE` and withdraws pending requests without any
completion event; an idle unit's stream is untouched; a write under way leaves the sink poisoned; a read
under way may have consumed up to its full count of the bytes there are.
The record has the poisoning (R26), in the form of log 10; the drawn number of lost bytes is log 6's. -/
def Obligations.RstAbandonsWithoutCompletion : Prop :=
  ∀ (s : State) (l : List Input), s.inputs = .rst :: l →
    ∃ t c, step s = .next t ∧ UnitsIdle t ∧ t.pendingSnkReq = none ∧ t.pendingSrcReq = none ∧
      t.trace = s.trace ++ [.rst] ∧ t.inputs = l ∧ t.bwcValue = s.bwcValue ∧
      t.snkAnswers = s.snkAnswers ∧ t.srcAnswers = s.srcAnswers ∧
      (s.encState = .idle → t.snk = s.snk ∧ t.record = s.record) ∧
      (s.encState = .write → t.snk = .poisoned ∧ t.record = s.record ++ [.sinkPoisoned]) ∧
      t.src = { s.src with pos := s.src.pos + c } ∧
      (s.decState = .idle → c = 0) ∧
      (s.decState = .rdPrefix → c ≤ min 1 s.src.rest.length) ∧
      (s.decState = .rdRest → c ≤ min (prefixLen s.decPrefix - 1) s.src.rest.length)

/-! ### The step -/

/-- A step takes a request off the events to come and runs the instruction it fetches: the operation its port
selects (R62); for `dec_req`, the WIRE form that stands at the source's position, if a whole one does.
R62 says that `dec_req` is a `DECODE`; that it is exec of the WIRE form at the position is the model's reading
(log 7), which StepPerformsTheRequestedOperation ties back to R62. -/
def Obligations.StepRunsTheFetchedInstruction : Prop :=
  ∀ (s : State) (l : List Input),
    (∀ v, s.inputs = .request (.bwcValue v) :: l → step s = exec (.sizeOf v) { s with inputs := l }) ∧
    (∀ v, s.inputs = .request (.encReq v) :: l → step s = exec (.encode v) { s with inputs := l }) ∧
    (∀ i tail, s.inputs = .request .decReq :: l → decodeBytes s.src.rest = .ok (i, tail) →
      step s = exec i { s with inputs := l }) ∧
    (∀ err, s.inputs = .request .decReq :: l → decodeBytes s.src.rest = .error err →
      step s = exec .decode { s with inputs := l })

/-- A request is the operation on its port: `dec_req` runs `DECODE` whichever arm the fetch takes (R62,
R99). -/
def Obligations.StepPerformsTheRequestedOperation : Prop :=
  ∀ (s : State) (r : Request) (l : List Input), s.inputs = .request r :: l →
    step s = exec (decodeRequest r) { s with inputs := l }

/-- The instruction placed by `withFetchWord` is the one the next step runs.
How a word is placed is the model's choice (log 9). -/
def Obligations.PlacedWordIsRunNext : Prop :=
  ∀ (s : State) (nbits w : Nat) (i : Instr), decodeTableWord nbits w = some i →
    ∃ s', s'.inputs = s.inputs ∧ (∃ tail, decodeBytes s'.src.rest = .ok (i, tail)) ∧
      s'.src.pos = s.src.pos ∧ s'.decState = s.decState ∧
      step (s.withFetchWord nbits w) = exec i s'

/-- R168, R152: without an event nothing happens; a waiting unit stays in its phase for ever.
That such a step answers the same state is the model's choice (log 4). -/
def Obligations.NothingHappensWithoutAnEvent : Prop :=
  ∀ (s : State) (k : Nat), s.inputs = [] → Host.Core.run core k s = .next s

/-- R168: only the reply it awaits, or `rst`, releases a waiting unit; nothing else moves its phase, its latch
or its stream. -/
def Obligations.OnlyReplyOrResetReleasesAUnit : Prop :=
  ∀ (s t : State) (a : Input) (l : List Input), s.inputs = a :: l → step s = .next t → a ≠ .rst →
    (s.encState = .write → (∀ r, a ≠ .sinkReply r) →
      t.encState = .write ∧ t.encV = s.encV ∧ t.snk = s.snk ∧ t.pendingSnkReq = s.pendingSnkReq) ∧
    (s.decState ≠ .idle → (∀ r, a ≠ .sourceReply r) →
      t.decState = s.decState ∧ t.decPrefix = s.decPrefix ∧ t.src = s.src ∧
        t.pendingSrcReq = s.pendingSrcReq)

/-- R165, R173: an answer that nobody asked for, and another user of a stream, have no step.
That an unasked answer stops with a fault, and by which name, is the model's choice (log 11); so is that
another user is refused in every phase (log 12). -/
def Obligations.EventsWithoutAStep : Prop :=
  ∀ (s : State) (l : List Input),
    (∀ r, s.encState = .idle → s.inputs = .sinkReply r :: l → step s = .fault .unawaitedSinkReply) ∧
    (∀ r, s.decState = .idle → s.inputs = .sourceReply r :: l → step s = .fault .unawaitedSourceReply) ∧
    (s.inputs = .otherSinkUser :: l → step s = .refused .sharedSink) ∧
    (s.inputs = .otherSourceUser :: l → step s = .refused .sharedSource)

/-! ### Invariants and whole-machine rules -/

/-- The invariant holds after reset. -/
def Obligations.InvariantHoldsAtReset : Prop := Inv State.reset

/-- Every step keeps the invariant: the position within the content, no write under way to a poisoned sink, the
latched prefix byte the one consumed last, and the record equal to what was delivered (R21 to R23, R26). -/
def Obligations.EveryStepKeepsTheInvariant : Prop :=
  ∀ s t : State, Inv s → step s = .next t → Inv t

/-- R23, R26, R39: no step changes the source's content, moves its position back, or clears the record; port
events are never taken back; a poisoned sink stays poisoned. -/
def Obligations.StepsOnlyMoveForward : Prop :=
  ∀ s t : State, step s = .next t →
    t.src.content = s.src.content ∧ s.src.pos ≤ t.src.pos ∧ s.record <+: t.record ∧ s.trace <+: t.trace ∧
    (s.snk = .poisoned → t.snk = .poisoned)

/-- R13, R25: an idle unit's latch is never read: whatever `enc_v` and `dec_prefix` hold while both units are
idle, a step does the same, and a latch that the step leaves in use holds the same afterwards. -/
def Obligations.IdleLatchesAreNotRead : Prop :=
  ∀ (s t : State) (a : Value) (b : Byte), UnitsIdle s → step s = .next t →
    ∃ t', step { s with encV := a, decPrefix := b } = .next t' ∧
      { t' with encV := t.encV, decPrefix := t.decPrefix } = t ∧
      (t.encState = .write → t'.encV = t.encV) ∧ (t.decState = .rdRest → t'.decPrefix = t.decPrefix)

/-- R11, R150: an operation of ENC and one of DEC commute: either order leaves the same units and streams, and
each unit delivers the same outcomes. -/
def Obligations.EncAndDecAreIndependent : Prop :=
  ∀ (v : Value) (s s1 s2 : State), exec (.encode v) s = .next s1 → exec .decode s = .next s2 →
    ∃ t t', exec .decode s1 = .next t ∧ exec (.encode v) s2 = .next t' ∧
      { t with trace := [], record := [] } = { t' with trace := [], record := [] } ∧
      t.trace.filterMap PortEvent.encOutcome = t'.trace.filterMap PortEvent.encOutcome ∧
      t.trace.filterMap PortEvent.decOutcome = t'.trace.filterMap PortEvent.decOutcome

/-! ### Streams -/

/-- R126, R42: successive `ENCODE`s on a simple sink append the concatenation of the Encodings, in order; all
complete `OK`. -/
def Obligations.EncodesConcatenate : Prop :=
  ∀ (vs : List Value) (s : State) (content : List Byte) (l : List Input),
    s.encState = .idle → s.snk = .clean content → s.snkAnswers = [] →
    s.inputs = vs.map (fun v => .request (.encReq v)) ++ l →
    ∃ t : State, Host.Core.run core vs.length s = .next t ∧
      t.snk = .clean (content ++ vs.flatMap encBytes) ∧ t.encState = .idle ∧ t.inputs = l ∧
      t.record = s.record ∧ t.src = s.src ∧
      t.trace.filterMap PortEvent.encOutcome =
        s.trace.filterMap PortEvent.encOutcome ++ List.replicate vs.length .ok

/-- R126, R42: successive `DECODE`s on a simple source that holds the Encodings of a list of Values deliver them
in order and end just behind them; at the end of the content a further one fails at its first read.
The form of the record's entry is the model's choice (log 10). -/
def Obligations.DecodesReturnTheValuesInOrder : Prop :=
  ∀ (vs : List Value) (s : State) (tail : List Byte) (l : List Input),
    s.decState = .idle → s.srcAnswers = [] → s.src.rest = vs.flatMap encBytes ++ tail →
    s.inputs = List.replicate vs.length (.request .decReq) ++ l →
    ∃ t : State, Host.Core.run core vs.length s = .next t ∧
      t.src.pos = s.src.pos + (vs.map numBytes).sum ∧ t.src.rest = tail ∧ t.decState = .idle ∧
      t.inputs = l ∧ t.record = s.record ∧ t.snk = s.snk ∧
      t.trace.filterMap PortEvent.decOutcome =
        s.trace.filterMap PortEvent.decOutcome ++ vs.map .ok ∧
      (tail = [] → ∃ u, exec .decode t = .next u ∧ u.src = t.src ∧
        u.record = t.record ++ [.ioError .x2 Config.endOfInput])
end

