-- ==== Sys2Proof/Laws/Operands.lean ====
section
/-! SUPPORT. The small lemmas of the functions on operands: little-endian reading, trailing zeros, sizes. -/

namespace Sys2Proof.Machine

/-! ### LE and Bytes_n -/

@[simp] theorem le_nil : le [] = 0 := rfl

@[simp] theorem le_cons (b : Byte) (bs : List Byte) : le (b :: bs) = b.toNat + 256 * le bs := rfl

@[simp] theorem bytesLE_zero (x : Nat) : bytesLE 0 x = [] := rfl

theorem bytesLE_succ (n x : Nat) : bytesLE (n + 1) x = BitVec.ofNat 8 x :: bytesLE n (x / 256) := rfl

@[simp] theorem length_bytesLE (n x : Nat) : (bytesLE n x).length = n := by
  induction n generalizing x with
  | zero => rfl
  | succ n ih => simp [bytesLE_succ, ih]

theorem le_lt (bs : List Byte) : le bs < 256 ^ bs.length := by
  induction bs with
  | nil => simp
  | cons b bs ih =>
    have := b.isLt
    simp only [le_cons, List.length_cons, Nat.pow_succ]
    omega

theorem le_bytesLE (n x : Nat) : le (bytesLE n x) = x % 256 ^ n := by
  induction n generalizing x with
  | zero => simp [Nat.mod_one]
  | succ n ih =>
    rw [bytesLE_succ, le_cons, ih, BitVec.toNat_ofNat, show 256 ^ (n + 1) = 2 ^ 8 * 256 ^ n by ring,
      Nat.mod_mul (x := x) (a := 2 ^ 8)]
    norm_num

theorem le_bytesLE_of_lt {n x : Nat} (h : x < 256 ^ n) : le (bytesLE n x) = x := by
  rw [le_bytesLE, Nat.mod_eq_of_lt h]

theorem bytesLE_le (bs : List Byte) : bytesLE bs.length (le bs) = bs := by
  induction bs with
  | nil => rfl
  | cons b bs ih =>
    have hb : b.toNat < 256 := b.isLt
    have hd : (b.toNat + 256 * le bs) / 256 = le bs := by omega
    have hm : BitVec.ofNat 8 (b.toNat + 256 * le bs) = b := by
      apply BitVec.eq_of_toNat_eq
      rw [BitVec.toNat_ofNat]
      omega
    rw [List.length_cons, le_cons, bytesLE_succ, hd, hm, ih]

theorem bytesLE_inj {n x y : Nat} (hx : x < 256 ^ n) (hy : y < 256 ^ n)
    (h : bytesLE n x = bytesLE n y) : x = y := by
  rw [← le_bytesLE_of_lt hx, ← le_bytesLE_of_lt hy, h]

theorem bytesLE_getElem? (n x i : Nat) :
    (bytesLE n x)[i]? = if i < n then some (BitVec.ofNat 8 (x / 256 ^ i)) else none := by
  induction n generalizing x i with
  | zero => simp
  | succ n ih =>
    cases i with
    | zero => simp [bytesLE_succ]
    | succ i => simp [bytesLE_succ, ih, Nat.pow_succ', Nat.div_div_eq_div_mul]

theorem le_append (as bs : List Byte) : le (as ++ bs) = le as + 256 ^ as.length * le bs := by
  induction as with
  | nil => simp
  | cons a as ih =>
    rw [List.cons_append, le_cons, le_cons, ih, List.length_cons, Nat.pow_succ']
    ring

/-! ### Trailing zeros of the prefix byte -/

theorem prefixLen_pos (b : Byte) : 1 ≤ prefixLen b := Nat.le_add_left 1 _

theorem prefixLen_le (b : Byte) : prefixLen b ≤ 9 := by revert b; decide

/-- The prefix byte of an Encoding of 1 to 8 bytes: zeros, the marker bit, payload above (R55). -/
theorem prefix_mod (b : Byte) (h : prefixLen b ≤ 8) :
    b.toNat % 2 ^ prefixLen b = 2 ^ (prefixLen b - 1) := by revert b; decide

/-- The prefix byte of an Encoding of 9 bytes is `0x00` (R56). -/
theorem prefix_nine (b : Byte) (h : prefixLen b = 9) : b = 0 := by revert b; decide

/-- A byte with the marker bit at position `n - 1` above zeros has length `n` (R53). -/
theorem prefixLen_of_mod (b : Byte) (n : Nat) (h1 : 1 ≤ n) (h8 : n ≤ 8)
    (h : b.toNat % 2 ^ n = 2 ^ (n - 1)) : prefixLen b = n := by
  have key : ∀ b : Byte, ∀ k : Fin 8,
      b.toNat % 2 ^ (k.val + 1) = 2 ^ k.val → prefixLen b = k.val + 1 := by decide
  have := key b ⟨n - 1, by omega⟩
  simp only [Nat.sub_add_cancel h1] at this
  exact this h

/-! ### Sizes -/

theorem bits_pos (v : Value) : 1 ≤ bits v := by
  unfold bits; split <;> omega

/-- The threshold form of a bit count: `Bits(v) <= k` iff `v < 2^k`, for `k >= 1` (R70, R72). -/
theorem bits_le_iff (v : Value) {k : Nat} (hk : 1 ≤ k) : bits v ≤ k ↔ v.toNat < 2 ^ k := by
  unfold bits
  split
  · next h => simp [h, hk]
  · next h => rw [← Nat.log2_lt h]; omega

theorem bits_le (v : Value) : bits v ≤ 64 := (bits_le_iff v (by omega)).2 v.isLt

theorem numBytes_pos (v : Value) : 1 ≤ numBytes v := by
  unfold numBytes; split <;> omega

theorem numBytes_le (v : Value) : numBytes v ≤ 9 := by
  unfold numBytes; split <;> omega

/-- `bits` against the thresholds of `numBytes`. -/
theorem numBytes_le_iff_bits (v : Value) {k : Nat} (h1 : 1 ≤ k) (h8 : k ≤ 8) :
    numBytes v ≤ k ↔ bits v ≤ 7 * k := by
  have := bits_pos v
  unfold numBytes
  split <;> omega

/-! ### Port lanes -/

theorem srcLanes_toNat_mod (bs : List Byte) (upper : BitVec 64) (h : bs.length ≤ 8) :
    (srcLanes bs upper).toNat % 2 ^ (8 * bs.length) = le bs := by
  have hlt : le bs < 2 ^ (8 * bs.length) := by
    have := le_lt bs
    rwa [show (256 : Nat) = 2 ^ 8 from rfl, ← Nat.pow_mul] at this
  have h64 : 2 ^ (8 * bs.length) ∣ 2 ^ 64 := Nat.pow_dvd_pow 2 (by omega)
  have hor : ∀ a b k : Nat, (a ||| b) % 2 ^ k = (a % 2 ^ k) ||| (b % 2 ^ k) := fun a b k => by
    apply Nat.eq_of_testBit_eq
    intro i
    simp only [Nat.testBit_mod_two_pow, Nat.testBit_or]
    by_cases hi : i < k <;> simp [hi]
  simp only [srcLanes, BitVec.toNat_or, BitVec.toNat_ofNat, BitVec.toNat_shiftLeft,
    BitVec.toNat_ushiftRight]
  rw [hor, Nat.mod_mod_of_dvd _ h64, Nat.mod_mod_of_dvd _ h64, Nat.mod_eq_of_lt hlt,
    Nat.shiftLeft_eq, Nat.mul_mod_left]
  simp

@[simp] theorem srcLane_zero_srcLanes (p : Byte) (upper : BitVec 64) :
    srcLane (srcLanes [p] upper) 0 = p := by
  have h := srcLanes_toNat_mod [p] upper (by simp)
  apply BitVec.eq_of_toNat_eq
  rw [srcLane, BitVec.extractLsb'_toNat]
  simpa using h

end Sys2Proof.Machine
end

