-- ==== Sys2Proof/Laws/Decode.lean ====
section
/-! SUPPORT. The small lemmas of the decoder and the encoder: the integer and the first byte of a WIRE form, the row a byte lies in, classes. -/

namespace Sys2Proof

open Sys2Proof.Machine

/-- The integer of a WIRE form of 1 to 8 bytes: the payload above the marker bit (R55). -/
theorem wireInt_lo {n : Nat} (p : Value) (h1 : 1 ≤ n) (h : n ≤ 8) : wireInt n p = p.toNat * 2^n + 2^(n-1) := by
  unfold wireInt
  rw [if_pos h, Nat.shiftLeft_eq, Nat.one_shiftLeft, Nat.mul_comm, Nat.two_pow_add_eq_or_of_lt]
  exact Nat.pow_lt_pow_right (by omega) (by omega)

/-- The integer of a WIRE form of 9 bytes (R56). -/
theorem wireInt_hi (p : Value) : wireInt 9 p = p.toNat * 2^8 := by
  unfold wireInt
  rw [if_neg (by omega), Nat.shiftLeft_eq]

/-- The integer of a WIRE form fits its bytes. -/
theorem wireInt_lt {n : Nat} (p : Value) (h1 : 1 ≤ n) (h : n ≤ 8) (hp : p.toNat < 2^(7*n)) : wireInt n p < 256^n := by
  rw [wireInt_lo p h1 h]
  have : (256:Nat)^n = 2^(7*n) * 2^n := by rw [← Nat.pow_add, show (256:Nat) = 2^8 by rfl, ← Nat.pow_mul]; congr 1; omega
  rw [this]
  have h2 : 2^(n-1) < 2^n := Nat.pow_lt_pow_right (by omega) (by omega)
  have : (p.toNat + 1) * 2^n ≤ 2^(7*n) * 2^n := Nat.mul_le_mul_right _ hp
  rw [Nat.add_mul] at this
  omega

/-- The first byte of a nonempty `Bytes_n`. -/
theorem bytesLE_head {n x : Nat} (h : 1 ≤ n) : bytesLE n x = BitVec.ofNat 8 x :: bytesLE (n-1) (x/256) := by
  obtain ⟨k, rfl⟩ : ∃ k, n = k+1 := ⟨n-1, by omega⟩
  rfl

/-- The first byte of a WIRE form declares its length (R53, R55, R56). -/
theorem prefixLen_wire {n : Nat} (p : Value) (h1 : 1 ≤ n) (h : n ≤ 9) : prefixLen (BitVec.ofNat 8 (wireInt n p)) = n := by
  by_cases h8 : n ≤ 8
  · apply prefixLen_of_mod _ _ h1 h8
    rw [wireInt_lo p h1 h8, BitVec.toNat_ofNat, Nat.mod_mod_of_dvd _ (Nat.pow_dvd_pow 2 h8)]
    rw [Nat.mul_comm, Nat.mul_add_mod, Nat.mod_eq_of_lt (Nat.pow_lt_pow_right (by omega) (by omega))]
  · obtain rfl : n = 9 := by omega
    rw [wireInt_hi]
    have : BitVec.ofNat 8 (p.toNat * 2^8) = 0 := by apply BitVec.eq_of_toNat_eq; simp
    rw [this]; rfl

/-- `wireInstr n` is of class `n`. -/
theorem wireInstr_class {n : Nat} (p : Value) (h1 : 1 ≤ n) (h : n ≤ 9) : (wireInstr n p).wireClass = some (n, p) := by
  interval_cases n <;> rfl

/-- An instruction with a class is the WIRE form of that class. -/
theorem class_eq {i : Instr} {n p} (h : i.wireClass = some (n,p)) : i = wireInstr n p := by
  cases i <;> simp only [Instr.wireClass, Option.some.injEq, Prod.mk.injEq, reduceCtorEq] at h <;>
    obtain ⟨rfl, rfl⟩ := h <;> rfl

/-- The code of a WIRE form is its bytes. -/
theorem class_encode {i : Instr} {n p} (h : i.wireClass = some (n,p)) : encode i = .wire (wireBytes n p) := by
  cases i <;> simp only [Instr.wireClass, Option.some.injEq, Prod.mk.injEq, reduceCtorEq] at h <;>
    obtain ⟨rfl, rfl⟩ := h <;> rfl

/-- The row of the table that a byte lies in (R53, R64). -/
theorem row_find (b : Byte) : ∃ row, wireRows.find? (·.has b) = some row ∧ row.len = prefixLen b ∧ row.shift = min (prefixLen b) 8 := by
  have : ∀ b : Byte, (wireRows.find? (·.has b)).map (fun r => (r.len, r.shift)) = some (prefixLen b, min (prefixLen b) 8) := by decide
  have := this b
  rw [Option.map_eq_some_iff] at this
  obtain ⟨r, h, h'⟩ := this
  exact ⟨r, h, (Prod.mk.inj h').1, (Prod.mk.inj h').2⟩

/-- The decoder in terms of `PrefixLen` (R59). -/
theorem decodeBytes_cons (p : Byte) (rest : List Byte) : decodeBytes (p :: rest) =
   if (p::rest).length < prefixLen p then .error (.truncated (prefixLen p) (p::rest).length)
   else .ok (wireInstr (prefixLen p) (BitVec.ofNat 64 (le ((p::rest).take (prefixLen p)) >>> min (prefixLen p) 8)), (p::rest).drop (prefixLen p)) := by
  obtain ⟨row, h, hl, hs⟩ := row_find p
  simp only [decodeBytes, h, hl, hs]

/-- What an accepted sequence looks like (R60). -/
theorem accepted_iff {bs : List Byte} : accepted bs = true ↔ ∃ p rest, bs = p :: rest ∧ bs.length = prefixLen p := by
  cases bs with
  | nil => simp [accepted]
  | cons p rest => simp [accepted]

/-- `DecValue` of an accepted sequence: one shift (R95). -/
theorem decValue_eq {p : Byte} {rest : List Byte} (h : (p::rest).length = prefixLen p) :
    decValue (p :: rest) = BitVec.ofNat 64 (le (p :: rest) >>> min (prefixLen p) 8) := by
  have := prefixLen_le p
  unfold decValue
  simp only []
  split
  · next h => rw [Nat.min_eq_left h]
  · next h => rw [Nat.min_eq_right (by omega)]

end Sys2Proof
end

