-- ==== Sys2Proof/Laws/State.lean ====
section
/-! SUPPORT. One lemma per field per single update of the state, so that no proof unfolds an update. -/

namespace Sys2Proof.Machine

variable (s : State)

/-! ### emit -/

@[simp] theorem State.emit_encState (e : PortEvent) : (s.emit e).encState = s.encState := rfl
@[simp] theorem State.emit_encV (e : PortEvent) : (s.emit e).encV = s.encV := rfl
@[simp] theorem State.emit_decState (e : PortEvent) : (s.emit e).decState = s.decState := rfl
@[simp] theorem State.emit_decPrefix (e : PortEvent) : (s.emit e).decPrefix = s.decPrefix := rfl
@[simp] theorem State.emit_bwcValue (e : PortEvent) : (s.emit e).bwcValue = s.bwcValue := rfl
@[simp] theorem State.emit_snk (e : PortEvent) : (s.emit e).snk = s.snk := rfl
@[simp] theorem State.emit_src (e : PortEvent) : (s.emit e).src = s.src := rfl
@[simp] theorem State.emit_trace (e : PortEvent) : (s.emit e).trace = s.trace ++ [e] := rfl
@[simp] theorem State.emit_record (e : PortEvent) : (s.emit e).record = s.record := rfl
@[simp] theorem State.emit_inputs (e : PortEvent) : (s.emit e).inputs = s.inputs := rfl
@[simp] theorem State.emit_snkAnswers (e : PortEvent) : (s.emit e).snkAnswers = s.snkAnswers := rfl
@[simp] theorem State.emit_srcAnswers (e : PortEvent) : (s.emit e).srcAnswers = s.srcAnswers := rfl
@[simp] theorem State.emit_draws (e : PortEvent) : (s.emit e).draws = s.draws := rfl

/-! ### note -/

@[simp] theorem State.note_encState (f : FaultEntry) : (s.note f).encState = s.encState := rfl
@[simp] theorem State.note_encV (f : FaultEntry) : (s.note f).encV = s.encV := rfl
@[simp] theorem State.note_decState (f : FaultEntry) : (s.note f).decState = s.decState := rfl
@[simp] theorem State.note_decPrefix (f : FaultEntry) : (s.note f).decPrefix = s.decPrefix := rfl
@[simp] theorem State.note_bwcValue (f : FaultEntry) : (s.note f).bwcValue = s.bwcValue := rfl
@[simp] theorem State.note_snk (f : FaultEntry) : (s.note f).snk = s.snk := rfl
@[simp] theorem State.note_src (f : FaultEntry) : (s.note f).src = s.src := rfl
@[simp] theorem State.note_trace (f : FaultEntry) : (s.note f).trace = s.trace := rfl
@[simp] theorem State.note_record (f : FaultEntry) : (s.note f).record = s.record ++ [f] := rfl
@[simp] theorem State.note_inputs (f : FaultEntry) : (s.note f).inputs = s.inputs := rfl
@[simp] theorem State.note_snkAnswers (f : FaultEntry) : (s.note f).snkAnswers = s.snkAnswers := rfl
@[simp] theorem State.note_srcAnswers (f : FaultEntry) : (s.note f).srcAnswers = s.srcAnswers := rfl
@[simp] theorem State.note_draws (f : FaultEntry) : (s.note f).draws = s.draws := rfl

/-! ### setEncState -/

@[simp] theorem State.setEncState_encState (p : EncState) : (s.setEncState p).encState = p := rfl
@[simp] theorem State.setEncState_encV (p : EncState) : (s.setEncState p).encV = s.encV := rfl
@[simp] theorem State.setEncState_decState (p : EncState) : (s.setEncState p).decState = s.decState := rfl
@[simp] theorem State.setEncState_decPrefix (p : EncState) : (s.setEncState p).decPrefix = s.decPrefix := rfl
@[simp] theorem State.setEncState_bwcValue (p : EncState) : (s.setEncState p).bwcValue = s.bwcValue := rfl
@[simp] theorem State.setEncState_snk (p : EncState) : (s.setEncState p).snk = s.snk := rfl
@[simp] theorem State.setEncState_src (p : EncState) : (s.setEncState p).src = s.src := rfl
@[simp] theorem State.setEncState_trace (p : EncState) : (s.setEncState p).trace = s.trace := rfl
@[simp] theorem State.setEncState_record (p : EncState) : (s.setEncState p).record = s.record := rfl
@[simp] theorem State.setEncState_inputs (p : EncState) : (s.setEncState p).inputs = s.inputs := rfl
@[simp] theorem State.setEncState_snkAnswers (p : EncState) : (s.setEncState p).snkAnswers = s.snkAnswers := rfl
@[simp] theorem State.setEncState_srcAnswers (p : EncState) : (s.setEncState p).srcAnswers = s.srcAnswers := rfl
@[simp] theorem State.setEncState_draws (p : EncState) : (s.setEncState p).draws = s.draws := rfl

/-! ### setEncV -/

@[simp] theorem State.setEncV_encState (v : Value) : (s.setEncV v).encState = s.encState := rfl
@[simp] theorem State.setEncV_encV (v : Value) : (s.setEncV v).encV = v := rfl
@[simp] theorem State.setEncV_decState (v : Value) : (s.setEncV v).decState = s.decState := rfl
@[simp] theorem State.setEncV_decPrefix (v : Value) : (s.setEncV v).decPrefix = s.decPrefix := rfl
@[simp] theorem State.setEncV_bwcValue (v : Value) : (s.setEncV v).bwcValue = s.bwcValue := rfl
@[simp] theorem State.setEncV_snk (v : Value) : (s.setEncV v).snk = s.snk := rfl
@[simp] theorem State.setEncV_src (v : Value) : (s.setEncV v).src = s.src := rfl
@[simp] theorem State.setEncV_trace (v : Value) : (s.setEncV v).trace = s.trace := rfl
@[simp] theorem State.setEncV_record (v : Value) : (s.setEncV v).record = s.record := rfl
@[simp] theorem State.setEncV_inputs (v : Value) : (s.setEncV v).inputs = s.inputs := rfl
@[simp] theorem State.setEncV_snkAnswers (v : Value) : (s.setEncV v).snkAnswers = s.snkAnswers := rfl
@[simp] theorem State.setEncV_srcAnswers (v : Value) : (s.setEncV v).srcAnswers = s.srcAnswers := rfl
@[simp] theorem State.setEncV_draws (v : Value) : (s.setEncV v).draws = s.draws := rfl

/-! ### setDecState -/

@[simp] theorem State.setDecState_encState (p : DecState) : (s.setDecState p).encState = s.encState := rfl
@[simp] theorem State.setDecState_encV (p : DecState) : (s.setDecState p).encV = s.encV := rfl
@[simp] theorem State.setDecState_decState (p : DecState) : (s.setDecState p).decState = p := rfl
@[simp] theorem State.setDecState_decPrefix (p : DecState) : (s.setDecState p).decPrefix = s.decPrefix := rfl
@[simp] theorem State.setDecState_bwcValue (p : DecState) : (s.setDecState p).bwcValue = s.bwcValue := rfl
@[simp] theorem State.setDecState_snk (p : DecState) : (s.setDecState p).snk = s.snk := rfl
@[simp] theorem State.setDecState_src (p : DecState) : (s.setDecState p).src = s.src := rfl
@[simp] theorem State.setDecState_trace (p : DecState) : (s.setDecState p).trace = s.trace := rfl
@[simp] theorem State.setDecState_record (p : DecState) : (s.setDecState p).record = s.record := rfl
@[simp] theorem State.setDecState_inputs (p : DecState) : (s.setDecState p).inputs = s.inputs := rfl
@[simp] theorem State.setDecState_snkAnswers (p : DecState) : (s.setDecState p).snkAnswers = s.snkAnswers := rfl
@[simp] theorem State.setDecState_srcAnswers (p : DecState) : (s.setDecState p).srcAnswers = s.srcAnswers := rfl
@[simp] theorem State.setDecState_draws (p : DecState) : (s.setDecState p).draws = s.draws := rfl

/-! ### setDecPrefix -/

@[simp] theorem State.setDecPrefix_encState (p : Byte) : (s.setDecPrefix p).encState = s.encState := rfl
@[simp] theorem State.setDecPrefix_encV (p : Byte) : (s.setDecPrefix p).encV = s.encV := rfl
@[simp] theorem State.setDecPrefix_decState (p : Byte) : (s.setDecPrefix p).decState = s.decState := rfl
@[simp] theorem State.setDecPrefix_decPrefix (p : Byte) : (s.setDecPrefix p).decPrefix = p := rfl
@[simp] theorem State.setDecPrefix_bwcValue (p : Byte) : (s.setDecPrefix p).bwcValue = s.bwcValue := rfl
@[simp] theorem State.setDecPrefix_snk (p : Byte) : (s.setDecPrefix p).snk = s.snk := rfl
@[simp] theorem State.setDecPrefix_src (p : Byte) : (s.setDecPrefix p).src = s.src := rfl
@[simp] theorem State.setDecPrefix_trace (p : Byte) : (s.setDecPrefix p).trace = s.trace := rfl
@[simp] theorem State.setDecPrefix_record (p : Byte) : (s.setDecPrefix p).record = s.record := rfl
@[simp] theorem State.setDecPrefix_inputs (p : Byte) : (s.setDecPrefix p).inputs = s.inputs := rfl
@[simp] theorem State.setDecPrefix_snkAnswers (p : Byte) : (s.setDecPrefix p).snkAnswers = s.snkAnswers := rfl
@[simp] theorem State.setDecPrefix_srcAnswers (p : Byte) : (s.setDecPrefix p).srcAnswers = s.srcAnswers := rfl
@[simp] theorem State.setDecPrefix_draws (p : Byte) : (s.setDecPrefix p).draws = s.draws := rfl

/-! ### setBwcValue -/

@[simp] theorem State.setBwcValue_encState (v : Value) : (s.setBwcValue v).encState = s.encState := rfl
@[simp] theorem State.setBwcValue_encV (v : Value) : (s.setBwcValue v).encV = s.encV := rfl
@[simp] theorem State.setBwcValue_decState (v : Value) : (s.setBwcValue v).decState = s.decState := rfl
@[simp] theorem State.setBwcValue_decPrefix (v : Value) : (s.setBwcValue v).decPrefix = s.decPrefix := rfl
@[simp] theorem State.setBwcValue_bwcValue (v : Value) : (s.setBwcValue v).bwcValue = v := rfl
@[simp] theorem State.setBwcValue_snk (v : Value) : (s.setBwcValue v).snk = s.snk := rfl
@[simp] theorem State.setBwcValue_src (v : Value) : (s.setBwcValue v).src = s.src := rfl
@[simp] theorem State.setBwcValue_trace (v : Value) : (s.setBwcValue v).trace = s.trace := rfl
@[simp] theorem State.setBwcValue_record (v : Value) : (s.setBwcValue v).record = s.record := rfl
@[simp] theorem State.setBwcValue_inputs (v : Value) : (s.setBwcValue v).inputs = s.inputs := rfl
@[simp] theorem State.setBwcValue_snkAnswers (v : Value) : (s.setBwcValue v).snkAnswers = s.snkAnswers := rfl
@[simp] theorem State.setBwcValue_srcAnswers (v : Value) : (s.setBwcValue v).srcAnswers = s.srcAnswers := rfl
@[simp] theorem State.setBwcValue_draws (v : Value) : (s.setBwcValue v).draws = s.draws := rfl

/-! ### setSnk -/

@[simp] theorem State.setSnk_encState (k : Sink) : (s.setSnk k).encState = s.encState := rfl
@[simp] theorem State.setSnk_encV (k : Sink) : (s.setSnk k).encV = s.encV := rfl
@[simp] theorem State.setSnk_decState (k : Sink) : (s.setSnk k).decState = s.decState := rfl
@[simp] theorem State.setSnk_decPrefix (k : Sink) : (s.setSnk k).decPrefix = s.decPrefix := rfl
@[simp] theorem State.setSnk_bwcValue (k : Sink) : (s.setSnk k).bwcValue = s.bwcValue := rfl
@[simp] theorem State.setSnk_snk (k : Sink) : (s.setSnk k).snk = k := rfl
@[simp] theorem State.setSnk_src (k : Sink) : (s.setSnk k).src = s.src := rfl
@[simp] theorem State.setSnk_trace (k : Sink) : (s.setSnk k).trace = s.trace := rfl
@[simp] theorem State.setSnk_record (k : Sink) : (s.setSnk k).record = s.record := rfl
@[simp] theorem State.setSnk_inputs (k : Sink) : (s.setSnk k).inputs = s.inputs := rfl
@[simp] theorem State.setSnk_snkAnswers (k : Sink) : (s.setSnk k).snkAnswers = s.snkAnswers := rfl
@[simp] theorem State.setSnk_srcAnswers (k : Sink) : (s.setSnk k).srcAnswers = s.srcAnswers := rfl
@[simp] theorem State.setSnk_draws (k : Sink) : (s.setSnk k).draws = s.draws := rfl

/-! ### consume -/

@[simp] theorem State.consume_encState (n : Nat) : (s.consume n).encState = s.encState := rfl
@[simp] theorem State.consume_encV (n : Nat) : (s.consume n).encV = s.encV := rfl
@[simp] theorem State.consume_decState (n : Nat) : (s.consume n).decState = s.decState := rfl
@[simp] theorem State.consume_decPrefix (n : Nat) : (s.consume n).decPrefix = s.decPrefix := rfl
@[simp] theorem State.consume_bwcValue (n : Nat) : (s.consume n).bwcValue = s.bwcValue := rfl
@[simp] theorem State.consume_snk (n : Nat) : (s.consume n).snk = s.snk := rfl
@[simp] theorem State.consume_src (n : Nat) : (s.consume n).src = { s.src with pos := s.src.pos + n } := rfl
@[simp] theorem State.consume_trace (n : Nat) : (s.consume n).trace = s.trace := rfl
@[simp] theorem State.consume_record (n : Nat) : (s.consume n).record = s.record := rfl
@[simp] theorem State.consume_inputs (n : Nat) : (s.consume n).inputs = s.inputs := rfl
@[simp] theorem State.consume_snkAnswers (n : Nat) : (s.consume n).snkAnswers = s.snkAnswers := rfl
@[simp] theorem State.consume_srcAnswers (n : Nat) : (s.consume n).srcAnswers = s.srcAnswers := rfl
@[simp] theorem State.consume_draws (n : Nat) : (s.consume n).draws = s.draws := rfl

/-! ### tick -/

@[simp] theorem State.tick_encState : s.tick.encState = s.encState := rfl
@[simp] theorem State.tick_encV : s.tick.encV = s.encV := rfl
@[simp] theorem State.tick_decState : s.tick.decState = s.decState := rfl
@[simp] theorem State.tick_decPrefix : s.tick.decPrefix = s.decPrefix := rfl
@[simp] theorem State.tick_bwcValue : s.tick.bwcValue = s.bwcValue := rfl
@[simp] theorem State.tick_snk : s.tick.snk = s.snk := rfl
@[simp] theorem State.tick_src : s.tick.src = s.src := rfl
@[simp] theorem State.tick_trace : s.tick.trace = s.trace := rfl
@[simp] theorem State.tick_record : s.tick.record = s.record := rfl
@[simp] theorem State.tick_inputs : s.tick.inputs = s.inputs := rfl
@[simp] theorem State.tick_snkAnswers : s.tick.snkAnswers = s.snkAnswers := rfl
@[simp] theorem State.tick_srcAnswers : s.tick.srcAnswers = s.srcAnswers := rfl
@[simp] theorem State.tick_draws : s.tick.draws = s.draws + 1 := rfl

/-! ### setInputs -/

@[simp] theorem State.setInputs_encState (l : List Input) : (s.setInputs l).encState = s.encState := rfl
@[simp] theorem State.setInputs_encV (l : List Input) : (s.setInputs l).encV = s.encV := rfl
@[simp] theorem State.setInputs_decState (l : List Input) : (s.setInputs l).decState = s.decState := rfl
@[simp] theorem State.setInputs_decPrefix (l : List Input) : (s.setInputs l).decPrefix = s.decPrefix := rfl
@[simp] theorem State.setInputs_bwcValue (l : List Input) : (s.setInputs l).bwcValue = s.bwcValue := rfl
@[simp] theorem State.setInputs_snk (l : List Input) : (s.setInputs l).snk = s.snk := rfl
@[simp] theorem State.setInputs_src (l : List Input) : (s.setInputs l).src = s.src := rfl
@[simp] theorem State.setInputs_trace (l : List Input) : (s.setInputs l).trace = s.trace := rfl
@[simp] theorem State.setInputs_record (l : List Input) : (s.setInputs l).record = s.record := rfl
@[simp] theorem State.setInputs_inputs (l : List Input) : (s.setInputs l).inputs = l := rfl
@[simp] theorem State.setInputs_snkAnswers (l : List Input) : (s.setInputs l).snkAnswers = s.snkAnswers := rfl
@[simp] theorem State.setInputs_srcAnswers (l : List Input) : (s.setInputs l).srcAnswers = s.srcAnswers := rfl
@[simp] theorem State.setInputs_draws (l : List Input) : (s.setInputs l).draws = s.draws := rfl

/-! ### setSnkAnswers -/

@[simp] theorem State.setSnkAnswers_encState (l : List (Option SinkReply)) : (s.setSnkAnswers l).encState = s.encState := rfl
@[simp] theorem State.setSnkAnswers_encV (l : List (Option SinkReply)) : (s.setSnkAnswers l).encV = s.encV := rfl
@[simp] theorem State.setSnkAnswers_decState (l : List (Option SinkReply)) : (s.setSnkAnswers l).decState = s.decState := rfl
@[simp] theorem State.setSnkAnswers_decPrefix (l : List (Option SinkReply)) : (s.setSnkAnswers l).decPrefix = s.decPrefix := rfl
@[simp] theorem State.setSnkAnswers_bwcValue (l : List (Option SinkReply)) : (s.setSnkAnswers l).bwcValue = s.bwcValue := rfl
@[simp] theorem State.setSnkAnswers_snk (l : List (Option SinkReply)) : (s.setSnkAnswers l).snk = s.snk := rfl
@[simp] theorem State.setSnkAnswers_src (l : List (Option SinkReply)) : (s.setSnkAnswers l).src = s.src := rfl
@[simp] theorem State.setSnkAnswers_trace (l : List (Option SinkReply)) : (s.setSnkAnswers l).trace = s.trace := rfl
@[simp] theorem State.setSnkAnswers_record (l : List (Option SinkReply)) : (s.setSnkAnswers l).record = s.record := rfl
@[simp] theorem State.setSnkAnswers_inputs (l : List (Option SinkReply)) : (s.setSnkAnswers l).inputs = s.inputs := rfl
@[simp] theorem State.setSnkAnswers_snkAnswers (l : List (Option SinkReply)) : (s.setSnkAnswers l).snkAnswers = l := rfl
@[simp] theorem State.setSnkAnswers_srcAnswers (l : List (Option SinkReply)) : (s.setSnkAnswers l).srcAnswers = s.srcAnswers := rfl
@[simp] theorem State.setSnkAnswers_draws (l : List (Option SinkReply)) : (s.setSnkAnswers l).draws = s.draws := rfl

/-! ### setSrcAnswers -/

@[simp] theorem State.setSrcAnswers_encState (l : List (Option SourceReply)) : (s.setSrcAnswers l).encState = s.encState := rfl
@[simp] theorem State.setSrcAnswers_encV (l : List (Option SourceReply)) : (s.setSrcAnswers l).encV = s.encV := rfl
@[simp] theorem State.setSrcAnswers_decState (l : List (Option SourceReply)) : (s.setSrcAnswers l).decState = s.decState := rfl
@[simp] theorem State.setSrcAnswers_decPrefix (l : List (Option SourceReply)) : (s.setSrcAnswers l).decPrefix = s.decPrefix := rfl
@[simp] theorem State.setSrcAnswers_bwcValue (l : List (Option SourceReply)) : (s.setSrcAnswers l).bwcValue = s.bwcValue := rfl
@[simp] theorem State.setSrcAnswers_snk (l : List (Option SourceReply)) : (s.setSrcAnswers l).snk = s.snk := rfl
@[simp] theorem State.setSrcAnswers_src (l : List (Option SourceReply)) : (s.setSrcAnswers l).src = s.src := rfl
@[simp] theorem State.setSrcAnswers_trace (l : List (Option SourceReply)) : (s.setSrcAnswers l).trace = s.trace := rfl
@[simp] theorem State.setSrcAnswers_record (l : List (Option SourceReply)) : (s.setSrcAnswers l).record = s.record := rfl
@[simp] theorem State.setSrcAnswers_inputs (l : List (Option SourceReply)) : (s.setSrcAnswers l).inputs = s.inputs := rfl
@[simp] theorem State.setSrcAnswers_snkAnswers (l : List (Option SourceReply)) : (s.setSrcAnswers l).snkAnswers = s.snkAnswers := rfl
@[simp] theorem State.setSrcAnswers_srcAnswers (l : List (Option SourceReply)) : (s.setSrcAnswers l).srcAnswers = l := rfl
@[simp] theorem State.setSrcAnswers_draws (l : List (Option SourceReply)) : (s.setSrcAnswers l).draws = s.draws := rfl

end Sys2Proof.Machine
end

