-- ==== Sys2Proof/Laws/Ops.lean ====
section
/-! SUPPORT. For each shared operation, what it can do: cited instead of unfolding it. -/

namespace Sys2Proof.Machine

/-! ### Prompt answers -/

theorem withSnkAnswer_nil {s : State} (k : SinkReply → State → State) (h : s.snkAnswers = []) :
    s.withSnkAnswer k = k .ok s := by simp [State.withSnkAnswer, h]

theorem withSnkAnswer_none {s : State} (k : SinkReply → State → State) {l} (h : s.snkAnswers = none :: l) :
    s.withSnkAnswer k = s.setSnkAnswers l := by simp [State.withSnkAnswer, h]

theorem withSnkAnswer_some {s : State} (k : SinkReply → State → State) {r l}
    (h : s.snkAnswers = some r :: l) : s.withSnkAnswer k = k r (s.setSnkAnswers l) := by
  simp [State.withSnkAnswer, h]

theorem withSrcAnswer_nil {s : State} (k : SourceReply → State → State) (h : s.srcAnswers = []) :
    s.withSrcAnswer k = k (.yield 0) s := by simp [State.withSrcAnswer, h]

theorem withSrcAnswer_none {s : State} (k : SourceReply → State → State) {l} (h : s.srcAnswers = none :: l) :
    s.withSrcAnswer k = s.setSrcAnswers l := by simp [State.withSrcAnswer, h]

theorem withSrcAnswer_some {s : State} (k : SourceReply → State → State) {r l}
    (h : s.srcAnswers = some r :: l) : s.withSrcAnswer k = k r (s.setSrcAnswers l) := by
  simp [State.withSrcAnswer, h]

/-- A write request waits, or its reply step runs; either way only the answers have moved before it. -/
theorem withSnkAnswer_cases (s : State) (k : SinkReply → State → State) :
    (∃ l, s.withSnkAnswer k = s.setSnkAnswers l) ∨
      ∃ r l, s.withSnkAnswer k = k r (s.setSnkAnswers l) := by
  rcases h : s.snkAnswers with _ | ⟨_ | r, l⟩
  · refine .inr ⟨.ok, [], ?_⟩
    rw [withSnkAnswer_nil k h]
    congr 1
    cases s; simp_all [State.setSnkAnswers]
  · exact .inl ⟨l, withSnkAnswer_none k h⟩
  · exact .inr ⟨r, l, withSnkAnswer_some k h⟩

/-- A read request waits, or its reply step runs; either way only the answers have moved before it. -/
theorem withSrcAnswer_cases (s : State) (k : SourceReply → State → State) :
    (∃ l, s.withSrcAnswer k = s.setSrcAnswers l) ∨
      ∃ r l, s.withSrcAnswer k = k r (s.setSrcAnswers l) := by
  rcases h : s.srcAnswers with _ | ⟨_ | r, l⟩
  · refine .inr ⟨.yield 0, [], ?_⟩
    rw [withSrcAnswer_nil k h]
    congr 1
    cases s; simp_all [State.setSrcAnswers]
  · exact .inl ⟨l, withSrcAnswer_none k h⟩
  · exact .inr ⟨r, l, withSrcAnswer_some k h⟩

/-! ### Failed reads -/

theorem failedConsumption_le (s : State) (n avail : Nat) : s.failedConsumption n avail ≤ min n avail :=
  Nat.le_of_lt_succ (Nat.mod_lt _ (Nat.succ_pos _))

@[simp] theorem failedConsumption_zero (s : State) (n : Nat) : s.failedConsumption n 0 = 0 := by
  simp [State.failedConsumption, Nat.mod_one]

theorem loseBytes_eq (s : State) (n avail : Nat) :
    s.loseBytes n avail =
      { s with
        src := { s.src with pos := s.src.pos + s.failedConsumption n avail }
        draws := s.draws + 1 } := rfl

/-! ### MemRead -/

theorem memRead_yield {n : Nat} {next : List Byte} (upper : BitVec 64) (s : State) (h : n ≤ next.length) :
    memRead n next (.yield upper) s =
      .ok (srcLanes (next.take n) upper) ((s.consume n).emit (.srcOk (srcLanes (next.take n) upper))) :=
  if_pos h

theorem memRead_short {n : Nat} {next : List Byte} (upper : BitVec 64) (s : State) (h : next.length < n) :
    memRead n next (.yield upper) s =
      .failed Config.endOfInput ((s.loseBytes n next.length).emit (.srcErr Config.endOfInput)) :=
  if_neg (Nat.not_le.2 h)

theorem memRead_err {n : Nat} {next : List Byte} (e : IoErr) (s : State) :
    memRead n next (.err e) s = .failed e ((s.loseBytes n next.length).emit (.srcErr e)) := rfl

/-- A read yields its bytes whole, or fails and loses some (R34, R36). -/
theorem memRead_cases (n : Nat) (next : List Byte) (r : SourceReply) (s : State) :
    (∃ upper, r = .yield upper ∧ n ≤ next.length ∧
      memRead n next r s =
        .ok (srcLanes (next.take n) upper) ((s.consume n).emit (.srcOk (srcLanes (next.take n) upper)))) ∨
    (∃ e, (r = .err e ∨ next.length < n ∧ e = Config.endOfInput) ∧
      memRead n next r s = .failed e ((s.loseBytes n next.length).emit (.srcErr e))) := by
  rcases r with upper | e
  · by_cases h : n ≤ next.length
    · exact .inl ⟨upper, rfl, h, memRead_yield upper s h⟩
    · exact .inr ⟨_, .inr ⟨Nat.not_le.1 h, rfl⟩, memRead_short upper s (Nat.not_le.1 h)⟩
  · exact .inr ⟨e, .inl rfl, rfl⟩

/-! ### Completions -/

theorem encodeDone_eq (s : State) :
    s.encodeDone = { s with encState := .idle, trace := s.trace ++ [.encDone .ok] } := rfl

theorem decodeDone_eq (s : State) (v : Value) :
    s.decodeDone v = { s with decState := .idle, trace := s.trace ++ [.decDone (.ok v)] } := rfl

theorem raiseIoFailure_x1 (s : State) (e : IoErr) :
    s.raiseIoFailure .x1 e =
      { s with
        encState := .idle
        record := s.record ++ [.ioError .x1 e]
        trace := s.trace ++ [.encDone (.ioError e)] } := rfl

theorem raiseIoFailure_x2 (s : State) (e : IoErr) :
    s.raiseIoFailure .x2 e =
      { s with
        decState := .idle
        record := s.record ++ [.ioError .x2 e]
        trace := s.trace ++ [.decDone (.ioError e)] } := rfl

theorem raiseIoFailure_x3 (s : State) (e : IoErr) :
    s.raiseIoFailure .x3 e =
      { s with
        decState := .idle
        record := s.record ++ [.ioError .x3 e]
        trace := s.trace ++ [.decDone (.ioError e)] } := rfl

/-! ### ENC -/

theorem encRequest_eq (v : Value) (s : State) :
    encRequest v s =
      { s with
        encState := .write
        encV := v
        trace := s.trace ++ [.encReq v] ++ [.snkReq (snkLen v) (snkData v)] } := rfl

theorem encReply_ok (s : State) :
    encReply .ok s =
      { s with
        encState := .idle
        snk := s.snk.append (encBytes s.encV)
        trace := s.trace ++ [.snkOk] ++ [.encDone .ok] } := rfl

theorem encReply_err (e : IoErr) (s : State) :
    encReply (.err e) s =
      { s with
        encState := .idle
        snk := .poisoned
        record := s.record ++ [.sinkPoisoned] ++ [.ioError .x1 e]
        trace := s.trace ++ [.snkErr e] ++ [.encDone (.ioError e)] } := rfl

/-- When `ENCODE` answers a next state, ENC was idle, the sink clean, and the request step ran. -/
theorem execEncode_next {v : Value} {s t : State} (h : execEncode v s = .next t) :
    s.encState = .idle ∧ (∃ content, s.snk = .clean content) ∧
      t = (encRequest v s).withSnkAnswer encReply := by
  unfold execEncode at h
  split at h
  · cases h
  · next hi =>
    split at h
    · cases h
    · next content hc => cases h; exact ⟨hi, ⟨content, hc⟩, rfl⟩

theorem execEncode_eq {v : Value} {s : State} {content} (hi : s.encState = .idle)
    (hc : s.snk = .clean content) :
    execEncode v s = .next ((encRequest v s).withSnkAnswer encReply) := by
  simp [execEncode, hi, hc]

/-! ### DEC -/

theorem decRequest_eq (s : State) :
    decRequest s =
      { s with decState := .rdPrefix, trace := s.trace ++ [.decReq] ++ [.srcReq 1] } := rfl

theorem decAskRest_eq (p : Byte) (s : State) :
    decAskRest p s =
      { s with
        decPrefix := p
        decState := .rdRest
        trace := s.trace ++ [.srcReq (BitVec.ofNat 4 (prefixLen p - 1))] } := rfl

/-- When a decode answers a next state, DEC was idle and the request step ran. -/
theorem decodeFrom_next {next : List Byte} {s t : State} (h : decodeFrom next s = .next t) :
    s.decState = .idle ∧ t = (decRequest s).withSrcAnswer (decReplyPrefix next) := by
  unfold decodeFrom at h
  split at h
  · next hi => cases h; exact ⟨hi, rfl⟩
  · cases h
  · cases h

theorem decodeFrom_eq {next : List Byte} {s : State} (hi : s.decState = .idle) :
    decodeFrom next s = .next ((decRequest s).withSrcAnswer (decReplyPrefix next)) := by
  simp [decodeFrom, hi]

/-- The reply step in `RD_REST`: the value of the whole Encoding, or X3 (R103). -/
theorem decReplyRest_cases (next : List Byte) (r : SourceReply) (s : State) :
    (∃ upper, r = .yield upper ∧ prefixLen s.decPrefix - 1 ≤ next.length ∧
      decReplyRest next r s =
        ((s.consume (prefixLen s.decPrefix - 1)).emit
          (.srcOk (srcLanes (next.take (prefixLen s.decPrefix - 1)) upper))).decodeDone
            (restValue s.decPrefix (srcLanes (next.take (prefixLen s.decPrefix - 1)) upper))) ∨
    (∃ e, (r = .err e ∨ next.length < prefixLen s.decPrefix - 1 ∧ e = Config.endOfInput) ∧
      decReplyRest next r s =
        ((s.loseBytes (prefixLen s.decPrefix - 1) next.length).emit (.srcErr e)).raiseIoFailure .x3 e) := by
  rcases memRead_cases (prefixLen s.decPrefix - 1) next r s with ⟨u, hr, hl, h⟩ | ⟨e, he, h⟩
  · exact .inl ⟨u, hr, hl, by rw [decReplyRest, h]⟩
  · exact .inr ⟨e, he, by rw [decReplyRest, h]⟩

/-- The reply step in `RD_PREFIX`: a one-byte Encoding completes, a longer one asks for the rest, or X2
(R103). -/
theorem decReplyPrefix_cases (next : List Byte) (r : SourceReply) (s : State) :
    (∃ upper p tail, r = .yield upper ∧ next = p :: tail ∧
      decReplyPrefix next r s =
        if prefixLen p = 1 then
          ((s.consume 1).emit (.srcOk (srcLanes [p] upper))).decodeDone (shortValue p)
        else
          (decAskRest p ((s.consume 1).emit (.srcOk (srcLanes [p] upper)))).withSrcAnswer
            (decReplyRest tail)) ∨
    (∃ e, (r = .err e ∨ next = [] ∧ e = Config.endOfInput) ∧
      decReplyPrefix next r s =
        ((s.loseBytes 1 next.length).emit (.srcErr e)).raiseIoFailure .x2 e) := by
  rcases memRead_cases 1 next r s with ⟨u, hr, hl, h⟩ | ⟨e, he, h⟩
  · cases next with
    | nil => simp at hl
    | cons p tail =>
      refine .inl ⟨u, p, tail, hr, rfl, ?_⟩
      rw [decReplyPrefix, h]
      simp
  · refine .inr ⟨e, ?_, by rw [decReplyPrefix, h]⟩
    rcases he with he | ⟨hl, he⟩
    · exact .inl he
    · exact .inr ⟨List.length_eq_zero_iff.1 (by omega), he⟩

/-- Executing a WIRE form is a decode of its bytes. -/
theorem exec_wire {i : Instr} {n : Nat} {p : Value} (h : i.wireClass = some (n, p)) (s : State) :
    exec i s = decodeFrom (wireBytes n p) s := by
  cases i <;> simp only [Instr.wireClass, Option.some.injEq, Prod.mk.injEq, reduceCtorEq] at h <;>
    obtain ⟨rfl, rfl⟩ := h <;> rfl

/-- Everything a decode can do: wait at the first read, fail at it, deliver a one-byte value, wait at the second
read, deliver a longer value, or fail at the second read (R104). -/
theorem decodeFrom_cases {next : List Byte} {s t : State} (h : decodeFrom next s = .next t) :
  s.decState = .idle ∧
  ((∃ l, t = { s with decState := .rdPrefix, srcAnswers := l, trace := s.trace ++ [.decReq, .srcReq 1] }) ∨
   (∃ e l, t = { s with
        decState := .idle
        src := { s.src with pos := s.src.pos + s.failedConsumption 1 next.length }
        srcAnswers := l
        record := s.record ++ [.ioError .x2 e]
        trace := s.trace ++ [.decReq, .srcReq 1, .srcErr e, .decDone (.ioError e)]
        draws := s.draws + 1 }) ∨
   (∃ p tail u l, next = p :: tail ∧ prefixLen p = 1 ∧ t = { s with
        decState := .idle
        src := { s.src with pos := s.src.pos + 1 }
        srcAnswers := l
        trace := s.trace ++ [.decReq, .srcReq 1, .srcOk (srcLanes [p] u), .decDone (.ok (shortValue p))] }) ∨
   (∃ p tail u l, next = p :: tail ∧ prefixLen p ≠ 1 ∧ t = { s with
        decState := .rdRest
        decPrefix := p
        src := { s.src with pos := s.src.pos + 1 }
        srcAnswers := l
        trace := s.trace ++ [.decReq, .srcReq 1, .srcOk (srcLanes [p] u), .srcReq (BitVec.ofNat 4 (prefixLen p - 1))] }) ∨
   (∃ p tail u u2 l, next = p :: tail ∧ prefixLen p ≠ 1 ∧ prefixLen p - 1 ≤ tail.length ∧ t = { s with
        decState := .idle
        decPrefix := p
        src := { s.src with pos := s.src.pos + 1 + (prefixLen p - 1) }
        srcAnswers := l
        trace := s.trace ++ [.decReq, .srcReq 1, .srcOk (srcLanes [p] u), .srcReq (BitVec.ofNat 4 (prefixLen p - 1)), .srcOk (srcLanes (tail.take (prefixLen p - 1)) u2), .decDone (.ok (restValue p (srcLanes (tail.take (prefixLen p - 1)) u2)))] }) ∨
   (∃ p tail u e l, next = p :: tail ∧ prefixLen p ≠ 1 ∧ t = { s with
        decState := .idle
        decPrefix := p
        src := { s.src with pos := s.src.pos + 1 + s.failedConsumption (prefixLen p - 1) tail.length }
        srcAnswers := l
        record := s.record ++ [.ioError .x3 e]
        trace := s.trace ++ [.decReq, .srcReq 1, .srcOk (srcLanes [p] u), .srcReq (BitVec.ofNat 4 (prefixLen p - 1)), .srcErr e, .decDone (.ioError e)]
        draws := s.draws + 1 })) := by
  obtain ⟨hi, rfl⟩ := decodeFrom_next h
  refine ⟨hi, ?_⟩
  rcases withSrcAnswer_cases (decRequest s) (decReplyPrefix next) with ⟨l, h⟩ | ⟨r, l, h⟩
  · rw [h]
    exact .inl ⟨l, by simp [decRequest_eq, State.setSrcAnswers]⟩
  rw [h]
  rcases decReplyPrefix_cases next r ((decRequest s).setSrcAnswers l) with ⟨u, p, tail, -, hn, h⟩ | ⟨e, -, h⟩
  · rw [h]
    split
    · next hp =>
      exact .inr (.inr (.inl ⟨p, tail, u, l, hn, hp, by
        simp [decodeDone_eq, decRequest_eq, State.setSrcAnswers, State.emit, State.consume]⟩))
    · next hp =>
      rcases withSrcAnswer_cases (decAskRest p ((((decRequest s).setSrcAnswers l).consume 1).emit (.srcOk (srcLanes [p] u)))) (decReplyRest tail) with ⟨l2, h⟩ | ⟨r, l2, h⟩
      · rw [h]
        exact .inr (.inr (.inr (.inl ⟨p, tail, u, l2, hn, hp, by
          simp [decRequest_eq, decAskRest_eq, State.setSrcAnswers, State.emit, State.consume]⟩)))
      · rw [h]
        rcases decReplyRest_cases tail r ((decAskRest p ((((decRequest s).setSrcAnswers l).consume 1).emit (.srcOk (srcLanes [p] u)))).setSrcAnswers l2) with ⟨u2, -, hle, h⟩ | ⟨e, -, h⟩
        · rw [h]
          exact .inr (.inr (.inr (.inr (.inl ⟨p, tail, u, u2, l2, hn, hp, hle, by
            simp [decodeDone_eq, decRequest_eq, decAskRest_eq, State.setSrcAnswers, State.emit, State.consume]⟩))))
        · rw [h]
          exact .inr (.inr (.inr (.inr (.inr ⟨p, tail, u, e, l2, hn, hp, by
            simp [raiseIoFailure_x3, loseBytes_eq, decRequest_eq, decAskRest_eq, State.setSrcAnswers, State.emit, State.consume, State.failedConsumption]⟩))))
  · rw [h]
    exact .inr (.inl ⟨e, l, by
      simp [raiseIoFailure_x2, loseBytes_eq, decRequest_eq, State.setSrcAnswers, State.emit, State.failedConsumption]⟩)

/-- ENC's reply step leaves DEC, its source and BWC alone; record and port events only grow. -/
theorem encReply_frame (r : SinkReply) (s : State) :
    (encReply r s).src = s.src ∧ (encReply r s).decState = s.decState ∧
      (encReply r s).decPrefix = s.decPrefix ∧ s.record <+: (encReply r s).record ∧
      s.trace <+: (encReply r s).trace ∧ (s.snk = .poisoned → (encReply r s).snk = .poisoned) := by
  cases r with
  | ok => rw [encReply_ok]; simp +contextual [Sink.append]
  | err e => rw [encReply_err]; simp

/-- When the port events of `t` are those of `s` and more, `newEvents` is what was added. -/
theorem drop_trace {s t : State} {l : List PortEvent} (h : t.trace = s.trace ++ l) :
    t.trace.drop s.trace.length = l := by rw [h, List.drop_left]

end Sys2Proof.Machine
end

