-- ==== Sys2Proof/Laws/PerInstr.lean ====
section
/-! SUPPORT. The statements made of every instruction, one lemma per constructor. -/

/-! ### SelfDescribing: the code of a well-formed instruction tells what it is -/

namespace Sys2Proof.Laws.SelfDescribing

/-- The code of a WIRE form is an accepted sequence of its length (R55, R56, R60); the code of an operation is
the port that selects it (R62). -/
def Statement (i : Instr) : Prop :=
  i.wellFormed = true →
    match encode i with
    | .wire bs => Machine.accepted bs = true ∧ ∃ n payload, i.wireClass = some (n, payload) ∧ bs.length = n
    | .port r => i.wireClass = none ∧ decodeRequest r = i

/-- The bytes of a WIRE form are an accepted sequence. -/
theorem accepted_wireBytes {n : Nat} (payload : Value) (h1 : 1 ≤ n) (h9 : n ≤ 9) :
    Machine.accepted (wireBytes n payload) = true := by
  rw [accepted_iff]
  exact ⟨_, _, bytesLE_head h1, by rw [wireBytes, Machine.length_bytesLE, prefixLen_wire payload h1 h9]⟩

theorem l1 (payload : Value) : Statement (.l1 payload) := fun _ =>
  ⟨accepted_wireBytes payload (by omega) (by omega), 1, payload, rfl, Machine.length_bytesLE _ _⟩

theorem l2 (payload : Value) : Statement (.l2 payload) := fun _ =>
  ⟨accepted_wireBytes payload (by omega) (by omega), 2, payload, rfl, Machine.length_bytesLE _ _⟩

theorem l3 (payload : Value) : Statement (.l3 payload) := fun _ =>
  ⟨accepted_wireBytes payload (by omega) (by omega), 3, payload, rfl, Machine.length_bytesLE _ _⟩

theorem l4 (payload : Value) : Statement (.l4 payload) := fun _ =>
  ⟨accepted_wireBytes payload (by omega) (by omega), 4, payload, rfl, Machine.length_bytesLE _ _⟩

theorem l5 (payload : Value) : Statement (.l5 payload) := fun _ =>
  ⟨accepted_wireBytes payload (by omega) (by omega), 5, payload, rfl, Machine.length_bytesLE _ _⟩

theorem l6 (payload : Value) : Statement (.l6 payload) := fun _ =>
  ⟨accepted_wireBytes payload (by omega) (by omega), 6, payload, rfl, Machine.length_bytesLE _ _⟩

theorem l7 (payload : Value) : Statement (.l7 payload) := fun _ =>
  ⟨accepted_wireBytes payload (by omega) (by omega), 7, payload, rfl, Machine.length_bytesLE _ _⟩

theorem l8 (payload : Value) : Statement (.l8 payload) := fun _ =>
  ⟨accepted_wireBytes payload (by omega) (by omega), 8, payload, rfl, Machine.length_bytesLE _ _⟩

theorem l9 (payload : Value) : Statement (.l9 payload) := fun _ =>
  ⟨accepted_wireBytes payload (by omega) (by omega), 9, payload, rfl, Machine.length_bytesLE _ _⟩

theorem sizeOf (v : Value) : Statement (.sizeOf v) := fun _ => ⟨rfl, rfl⟩

theorem encode (v : Value) : Statement (.encode v) := fun _ => ⟨rfl, rfl⟩

theorem decode : Statement .decode := fun _ => ⟨rfl, rfl⟩

end Sys2Proof.Laws.SelfDescribing
end

