-- ==== Sys2Proof/Laws/Step.lean ====
section
/-! SUPPORT. What one step can do, said once, and runs of several steps. -/

namespace Sys2Proof.Machine

/-- When a step answers a next state: nothing was to come, or the first event was a request, an awaited reply or
`rst`. -/
theorem step_cases {s t : State} (h : step s = .next t) :
    (s.inputs = [] ∧ t = s) ∨
    ∃ l, (∃ r, s.inputs = .request r :: l ∧ exec (fetched r (s.setInputs l)) (s.setInputs l) = .next t) ∨
      (∃ r, s.inputs = .sinkReply r :: l ∧ s.encState = .write ∧ t = encReply r (s.setInputs l)) ∨
      (∃ r, s.inputs = .sourceReply r :: l ∧ s.decState = .rdPrefix ∧
        t = decReplyPrefix s.src.rest r (s.setInputs l)) ∨
      (∃ r, s.inputs = .sourceReply r :: l ∧ s.decState = .rdRest ∧
        t = decReplyRest s.src.rest r (s.setInputs l)) ∨
      (s.inputs = .rst :: l ∧ t = resetEvent (s.setInputs l)) := by
  rcases hi : s.inputs with _ | ⟨a, l⟩
  · simp only [step, hi] at h
    cases h
    exact .inl ⟨rfl, rfl⟩
  · refine .inr ⟨l, ?_⟩
    cases a with
    | request r =>
      simp only [step, hi] at h
      exact .inl ⟨r, rfl, h⟩
    | sinkReply r =>
      simp only [step, hi, sinkReplyEvent, State.setInputs_encState] at h
      cases he : s.encState with
      | idle => rw [he] at h; cases h
      | write => rw [he] at h; cases h; exact .inr (.inl ⟨r, rfl, rfl, rfl⟩)
    | sourceReply r =>
      simp only [step, hi, sourceReplyEvent, State.setInputs_decState] at h
      cases he : s.decState with
      | idle => rw [he] at h; cases h
      | rdPrefix => rw [he] at h; cases h; exact .inr (.inr (.inl ⟨r, rfl, rfl, rfl⟩))
      | rdRest => rw [he] at h; cases h; exact .inr (.inr (.inr (.inl ⟨r, rfl, rfl, rfl⟩)))
    | rst =>
      simp only [step, hi, rstEvent] at h
      cases h
      exact .inr (.inr (.inr (.inr ⟨rfl, rfl⟩)))
    | otherSinkUser => simp only [step, hi, otherSinkUserEvent] at h; cases h
    | otherSourceUser => simp only [step, hi, otherSourceUserEvent] at h; cases h

/-- A run takes its first step. -/
theorem run_next {M : Host.Core} {s t : M.State} (k : Nat) (h : M.step s = .next t) :
    M.run (k + 1) s = M.run k t := by
  rw [Host.Core.run.eq_def]
  simp only [h]

end Sys2Proof.Machine
end

