-- ==== Sys2Proof/Laws/Runs.lean ====
section
/-! SUPPORT. Runs of several steps: what each event does to the operations under way, a stuck unit, and the end of a run whose streams answer. -/

namespace Sys2Proof.Machine

/-! ### Runs -/

/-- A step that changes nothing is repeated for ever. -/
theorem run_of_step_self {M : Host.Core} {s : M.State} (h : M.step s = .next s) (k : Nat) :
    M.run k s = .next s := by
  induction k with
  | zero => rfl
  | succ k ih => rw [run_next k h, ih]

/-- Without an event to come, a run stays where it is (R168). -/
theorem run_of_no_inputs {s : State} (h : s.inputs = []) (k : Nat) : Host.Core.run core k s = .next s :=
  run_of_step_self (M := core) (show step s = .next s by simp only [step, h]) k

/-- A run of `k + 1` steps that does not stop begins with one step. -/
theorem run_succ_cases {M : Host.Core} {k : Nat} {s t : M.State} (h : M.run (k + 1) s = .next t) :
    ∃ u, M.step s = .next u ∧ M.run k u = .next t := by
  rw [Host.Core.run.eq_def] at h
  cases hs : M.step s with
  | next u => simp only [hs] at h; exact ⟨u, rfl, h⟩
  | fault r => simp only [hs] at h; cases h
  | refused r => simp only [hs] at h; cases h

/-! ### Operations under way -/

/-- How many operations of ENC await their completion. -/
def encPending (s : State) : Nat := if s.encState = .idle then 0 else 1

/-- How many operations of DEC await their completion. -/
def decPending (s : State) : Nat := if s.decState = .idle then 0 else 1

/-- What a step does to the operations: `ev` are its port events, `e` and `d` how many of ENC and of DEC it starts. -/
structure Account (s t : State) (e d : Nat) (ev : List PortEvent) : Prop where
  trace : t.trace = s.trace ++ ev
  enc : (ev.filterMap PortEvent.encOutcome).length + encPending t = encPending s + e
  dec : (ev.filterMap PortEvent.decOutcome).length + decPending t = decPending s + d

theorem Account.refl (s : State) : Account s s 0 0 [] := ⟨by simp, by simp, by simp⟩

theorem Account.trans {s t u : State} {e d e' d' : Nat} {ev ev' : List PortEvent} (h : Account s t e d ev)
    (h' : Account t u e' d' ev') : Account s u (e + e') (d + d') (ev ++ ev') := by
  refine ⟨by rw [h'.trace, h.trace, List.append_assoc], ?_, ?_⟩
  · have := h.enc; have := h'.enc
    rw [List.filterMap_append, List.length_append]; omega
  · have := h.dec; have := h'.dec
    rw [List.filterMap_append, List.length_append]; omega

/-- ENC's reply step completes the operation under way. -/
theorem account_encReply (r : SinkReply) {s : State} (h : s.encState = .write) :
    ∃ ev, Account s (encReply r s) 0 0 ev := by
  cases r with
  | ok =>
    rw [encReply_ok]
    exact ⟨[.snkOk, .encDone .ok], by simp, by simp [encPending, h, PortEvent.encOutcome, List.filterMap_cons],
      by simp [decPending, PortEvent.decOutcome, List.filterMap_cons]⟩
  | err e =>
    rw [encReply_err]
    exact ⟨[.snkErr e, .encDone (.ioError e)], by simp,
      by simp [encPending, h, PortEvent.encOutcome, List.filterMap_cons],
      by simp [decPending, PortEvent.decOutcome, List.filterMap_cons]⟩

/-- `ENCODE` starts one operation of ENC, and may complete it. -/
theorem account_encode {v : Value} {s t : State} (h : execEncode v s = .next t) : ∃ ev, Account s t 1 0 ev := by
  obtain ⟨hi, _, rfl⟩ := execEncode_next h
  have hreq : Account s (encRequest v s) 1 0 [.encReq v, .snkReq (snkLen v) (snkData v)] := by
    rw [encRequest_eq]
    exact ⟨by simp, by simp [encPending, hi, PortEvent.encOutcome, List.filterMap_cons],
      by simp [decPending, PortEvent.decOutcome, List.filterMap_cons]⟩
  rcases withSnkAnswer_cases (encRequest v s) encReply with ⟨l, h⟩ | ⟨r, l, h⟩ <;> rw [h]
  · exact ⟨_, hreq.trace, hreq.enc, hreq.dec⟩
  · obtain ⟨ev, ha⟩ := account_encReply r (s := (encRequest v s).setSnkAnswers l) rfl
    exact ⟨_, hreq.trans ⟨ha.trace, ha.enc, ha.dec⟩⟩

/-- A decode starts one operation of DEC, and may complete it. -/
theorem account_decode {next : List Byte} {s t : State} (h : decodeFrom next s = .next t) :
    ∃ ev, Account s t 0 1 ev := by
  obtain ⟨hi, h⟩ := decodeFrom_cases h
  rcases h with ⟨_, rfl⟩ | ⟨_, _, rfl⟩ | ⟨_, _, _, _, _, _, rfl⟩ | ⟨_, _, _, _, _, _, rfl⟩ |
    ⟨_, _, _, _, _, _, _, _, rfl⟩ | ⟨_, _, _, _, _, _, _, rfl⟩ <;>
  exact ⟨_, rfl, by simp [encPending, PortEvent.encOutcome, List.filterMap_cons],
    by simp [decPending, hi, PortEvent.decOutcome, List.filterMap_cons]⟩

/-- DEC's reply step in `RD_REST` completes the operation under way. -/
theorem account_decReplyRest (next : List Byte) (r : SourceReply) {s : State} (h : s.decState = .rdRest) :
    ∃ ev, Account s (decReplyRest next r s) 0 0 ev := by
  rcases decReplyRest_cases next r s with ⟨u, _, _, e⟩ | ⟨x, _, e⟩ <;> rw [e]
  · refine ⟨[.srcOk _, .decDone (.ok _)], by simp [decodeDone_eq]; exact ⟨rfl, rfl⟩, ?_, ?_⟩
    · simp [decodeDone_eq, encPending, PortEvent.encOutcome, List.filterMap_cons]
    · simp [decodeDone_eq, decPending, h, PortEvent.decOutcome, List.filterMap_cons]
  · refine ⟨[.srcErr x, .decDone (.ioError x)], by simp [raiseIoFailure_x3, State.loseBytes], ?_, ?_⟩
    · simp [raiseIoFailure_x3, State.loseBytes, encPending, PortEvent.encOutcome, List.filterMap_cons]
    · simp [raiseIoFailure_x3, decPending, h, PortEvent.decOutcome, List.filterMap_cons]

/-- DEC's reply step in `RD_PREFIX` completes the operation under way or leaves it under way. -/
theorem account_decReplyPrefix (next : List Byte) (r : SourceReply) {s : State} (h : s.decState = .rdPrefix) :
    ∃ ev, Account s (decReplyPrefix next r s) 0 0 ev := by
  rcases decReplyPrefix_cases next r s with ⟨u, p, tail, _, _, e⟩ | ⟨x, _, e⟩ <;> rw [e]
  · split
    · refine ⟨[.srcOk (srcLanes [p] u), .decDone (.ok (shortValue p))], by simp [decodeDone_eq], ?_, ?_⟩
      · simp [decodeDone_eq, encPending, PortEvent.encOutcome, List.filterMap_cons]
      · simp [decodeDone_eq, decPending, h, PortEvent.decOutcome, List.filterMap_cons]
    · generalize hS : decAskRest p ((s.consume 1).emit (.srcOk (srcLanes [p] u))) = S
      have hask : Account s S 0 0 [.srcOk (srcLanes [p] u), .srcReq (BitVec.ofNat 4 (prefixLen p - 1))] := by
        rw [← hS, decAskRest_eq]
        exact ⟨by simp, by simp [encPending, PortEvent.encOutcome, List.filterMap_cons]; rfl,
          by simp [decPending, h, PortEvent.decOutcome, List.filterMap_cons]⟩
      have hd : S.decState = .rdRest := by rw [← hS]; rfl
      rcases withSrcAnswer_cases S (decReplyRest tail) with ⟨l, e⟩ | ⟨r, l, e⟩ <;> rw [e]
      · exact ⟨_, hask.trace, hask.enc, hask.dec⟩
      · obtain ⟨ev, ha⟩ := account_decReplyRest tail r (s := S.setSrcAnswers l) hd
        exact ⟨_, hask.trans ⟨ha.trace, ha.enc, ha.dec⟩⟩
  · refine ⟨[.srcErr x, .decDone (.ioError x)], by simp [raiseIoFailure_x2, State.loseBytes], ?_, ?_⟩
    · simp [raiseIoFailure_x2, State.loseBytes, encPending, PortEvent.encOutcome, List.filterMap_cons]
    · simp [raiseIoFailure_x2, decPending, h, PortEvent.decOutcome, List.filterMap_cons]

/-! ### A step, and a run, accounted for -/

/-- What a request runs is the operation of its unit; for DEC, a decode of some bytes. -/
theorem exec_fetched_cases {r : Request} {s t : State} (h : exec (fetched r s) s = .next t) :
    (∃ v, r = .bwcValue v ∧ t = s.setBwcValue v) ∨ (∃ v, r = .encReq v ∧ execEncode v s = .next t) ∨
      (r = .decReq ∧ ∃ next, decodeFrom next s = .next t) := by
  cases r with
  | bwcValue v => cases h; exact .inl ⟨v, rfl, rfl⟩
  | encReq v => exact .inr (.inl ⟨v, rfl, h⟩)
  | decReq =>
    refine .inr (.inr ⟨rfl, ?_⟩)
    cases hd : decodeBytes s.src.rest with
    | error e => simp only [fetched, hd] at h; exact ⟨_, h⟩
    | ok it =>
      obtain ⟨i, tail⟩ := it
      simp only [fetched, hd] at h
      cases hr : s.src.rest with
      | nil => rw [hr] at hd; cases hd
      | cons p more =>
        rw [hr, decodeBytes_cons] at hd
        split at hd
        · cases hd
        · cases hd
          rw [exec_wire (wireInstr_class _ (prefixLen_pos p) (prefixLen_le p))] at h
          exact ⟨_, h⟩

/-- How many operations of ENC an event starts. -/
def Input.encodes (a : Input) : Nat := if a.isEncode then 1 else 0

/-- How many operations of DEC an event starts. -/
def Input.decodes (a : Input) : Nat := if a.isDecode then 1 else 0

/-- No operation and no step of a unit touches the events to come. -/
theorem inputs_kept :
    (∀ {v : Value} {s t : State}, execEncode v s = .next t → t.inputs = s.inputs) ∧
    (∀ {next : List Byte} {s t : State}, decodeFrom next s = .next t → t.inputs = s.inputs) ∧
    (∀ (r : SinkReply) (s : State), (encReply r s).inputs = s.inputs) ∧
    (∀ (next : List Byte) (r : SourceReply) (s : State), (decReplyRest next r s).inputs = s.inputs) ∧
    (∀ (next : List Byte) (r : SourceReply) (s : State), (decReplyPrefix next r s).inputs = s.inputs) := by
  have hk : ∀ (r : SinkReply) (s : State), (encReply r s).inputs = s.inputs := fun r s => by
    cases r
    · rw [encReply_ok]
    · rw [encReply_err]
  have hr : ∀ (next : List Byte) (r : SourceReply) (s : State),
      (decReplyRest next r s).inputs = s.inputs := fun next r s => by
    rcases decReplyRest_cases next r s with ⟨u, _, _, e⟩ | ⟨x, _, e⟩ <;> rw [e]
    · simp [decodeDone_eq]
    · simp [raiseIoFailure_x3, State.loseBytes]
  refine ⟨fun h => ?_, fun h => ?_, hk, hr, fun next r s => ?_⟩
  · obtain ⟨_, _, rfl⟩ := execEncode_next h
    rcases withSnkAnswer_cases (encRequest _ _) encReply with ⟨l, e⟩ | ⟨r, l, e⟩ <;> rw [e]
    · rfl
    · rw [hk]; rfl
  · obtain ⟨_, h⟩ := decodeFrom_cases h
    rcases h with ⟨_, rfl⟩ | ⟨_, _, rfl⟩ | ⟨_, _, _, _, _, _, rfl⟩ | ⟨_, _, _, _, _, _, rfl⟩ |
      ⟨_, _, _, _, _, _, _, _, rfl⟩ | ⟨_, _, _, _, _, _, _, rfl⟩ <;> rfl
  · rcases decReplyPrefix_cases next r s with ⟨u, p, tail, _, _, e⟩ | ⟨x, _, e⟩ <;> rw [e]
    · split
      · simp [decodeDone_eq]
      · rcases withSrcAnswer_cases (decAskRest p ((s.consume 1).emit (.srcOk (srcLanes [p] u))))
          (decReplyRest tail) with ⟨l, e⟩ | ⟨r, l, e⟩ <;> rw [e]
        · rfl
        · rw [hr]; rfl
    · simp [raiseIoFailure_x2, State.loseBytes]

/-- A step takes in the next event and, unless that is `rst`, starts the operation it requests and completes at
most what is under way. -/
theorem step_account {s t : State} (h : step s = .next t) (hne : s.inputs ≠ []) :
    ∃ a, s.inputs = a :: t.inputs ∧ (a ≠ .rst → ∃ ev, Account s t a.encodes a.decodes ev) := by
  obtain ⟨ke, kd, ks, kr, kp⟩ := inputs_kept
  rcases step_cases h with ⟨h0, _⟩ | ⟨l, ⟨r, hi, h⟩ | ⟨r, hi, hw, rfl⟩ | ⟨r, hi, hw, rfl⟩ | ⟨r, hi, hw, rfl⟩ |
    ⟨hi, rfl⟩⟩
  · exact absurd h0 hne
  · rcases exec_fetched_cases h with ⟨v, rfl, rfl⟩ | ⟨v, rfl, h⟩ | ⟨rfl, next, h⟩
    · exact ⟨_, hi, fun _ => ⟨[], by simp, Nat.zero_add (encPending s), Nat.zero_add (decPending s)⟩⟩
    · obtain ⟨ev, ha⟩ := account_encode h
      exact ⟨.request (.encReq v), by rw [ke h]; exact hi, fun _ => ⟨ev, ha.trace, ha.enc, ha.dec⟩⟩
    · obtain ⟨ev, ha⟩ := account_decode h
      exact ⟨.request .decReq, by rw [kd h]; exact hi, fun _ => ⟨ev, ha.trace, ha.enc, ha.dec⟩⟩
  · obtain ⟨ev, ha⟩ := account_encReply r (s := s.setInputs l) hw
    exact ⟨.sinkReply r, by rw [ks]; exact hi, fun _ => ⟨ev, ha.trace, ha.enc, ha.dec⟩⟩
  · obtain ⟨ev, ha⟩ := account_decReplyPrefix s.src.rest r (s := s.setInputs l) hw
    exact ⟨.sourceReply r, by rw [kp]; exact hi, fun _ => ⟨ev, ha.trace, ha.enc, ha.dec⟩⟩
  · obtain ⟨ev, ha⟩ := account_decReplyRest s.src.rest r (s := s.setInputs l) hw
    exact ⟨.sourceReply r, by rw [kr]; exact hi, fun _ => ⟨ev, ha.trace, ha.enc, ha.dec⟩⟩
  · refine ⟨_, ?_, fun hr => absurd rfl hr⟩
    rw [hi]
    congr 1
    cases he : s.encState <;> cases hd : s.decState <;>
      simp [resetEvent, resetDec, resetEnc, he, hd, State.poisonSink, State.loseBytes]

/-- A run without `rst` through all events to come: every operation of the script was started, and those not under
way have completed. -/
theorem run_account (n : Nat) {s t : State} (hn : s.inputs.length = n) (hr : Input.rst ∉ s.inputs)
    (h : Host.Core.run core n s = .next t) :
    t.inputs = [] ∧
      ∃ ev, Account s t (s.inputs.countP Input.isEncode) (s.inputs.countP Input.isDecode) ev := by
  induction n generalizing s with
  | zero =>
    have h0 := List.length_eq_zero_iff.1 hn
    obtain rfl : s = t := by cases h; rfl
    rw [h0]
    exact ⟨rfl, [], Account.refl s⟩
  | succ n ih =>
    obtain ⟨u, hs, hu⟩ := run_succ_cases (M := core) h
    obtain ⟨a, hi, hacc⟩ := step_account hs (fun h0 => by rw [h0] at hn; cases hn)
    rw [hi] at hr hn
    obtain ⟨ev, ha⟩ := hacc (fun e => hr (e ▸ List.mem_cons_self))
    obtain ⟨hd, ev', ha'⟩ := ih (by simpa using hn) (fun m => hr (List.mem_cons_of_mem _ m)) hu
    refine ⟨hd, ev ++ ev', ?_⟩
    have := ha.trans ha'
    rw [hi, List.countP_cons, List.countP_cons]
    simp only [Input.encodes, Input.decodes] at this
    rwa [Nat.add_comm, Nat.add_comm (List.countP Input.isDecode _)]

/-! ### Stuck units and the end of a run -/

/-- A stuck unit is not an end (R172). -/
theorem Stuck.not_ended {s t : State} (h : Stuck t) : ¬ RunEnded s t := fun he => h.2 he.unitsIdle

/-- A stuck unit's request is never answered: its environment does not meet `EnvAnswers` (R168). -/
theorem Stuck.not_answers {s : State} (h : Stuck s) : ¬ EnvAnswers s := by
  intro ha
  obtain ⟨he, hd⟩ := ha 0 s rfl
  have stay : ∀ {m : Nat} {u : State}, Host.Core.run core m s = .next u → newEvents s u = [] := fun hm => by
    rw [run_of_no_inputs h.1] at hm
    cases hm
    exact List.drop_length
  rcases Classical.em (s.encState = .idle) with hi | hi
  · obtain ⟨m, u, hm, hx⟩ := hd fun hj => h.2 ⟨hi, hj⟩
    rw [stay hm] at hx
    cases hx
  · obtain ⟨m, u, hm, hx⟩ := he hi
    rw [stay hm] at hx
    cases hx

/-- A state that a run reaches meets `EnvAnswers` with its own start. -/
theorem EnvAnswers.of_run {s t : State} (h : EnvAnswers s) {n : Nat} (hr : Host.Core.run core n s = .next t) :
    EnvAnswers t := by
  have run_add : ∀ (n : Nat) (s : State), Host.Core.run core n s = .next t →
      ∀ (k : Nat) (u : State), Host.Core.run core k t = .next u → Host.Core.run core (n + k) s = .next u := by
    intro n
    induction n with
    | zero => intro s hs k u hk; cases hs; rwa [Nat.zero_add]
    | succ n ih =>
      intro s hs k u hk
      obtain ⟨w, hw, hn⟩ := run_succ_cases (M := core) hs
      rw [Nat.succ_add]
      exact (run_next (M := core) _ hw).trans (ih w hn k u hk)
  exact fun k u hk => h (n + k) u (run_add n s hr k u hk)

/-- A run ends when its streams answer (R163, R168, R172): launched with idle units, without `rst`, and under the
hazard rules, so that no request of it is refused and no reply comes unasked. -/
theorem run_ends {s : State} (hi : UnitsIdle s) (ha : EnvAnswers s) (hr : Input.rst ∉ s.inputs)
    (hrun : ∀ k, ∃ t, Host.Core.run core k s = .next t) : ∃ t, RunEnded s t := by
  obtain ⟨t, ht⟩ := hrun s.inputs.length
  obtain ⟨h0, ev, acc⟩ := run_account _ rfl hr ht
  have hidle : UnitsIdle t := by
    by_contra hc
    exact Stuck.not_answers ⟨h0, hc⟩ (ha.of_run ht)
  have hev : newEvents s t = ev := drop_trace acc.trace
  refine ⟨t, ⟨_, ht⟩, by simp [h0], ?_, ?_, hidle⟩
  · have := acc.enc
    simpa [encPending, hi.1, hidle.1, hev] using this
  · have := acc.dec
    simpa [decPending, hi.2, hidle.2, hev] using this

end Sys2Proof.Machine
end

