-- ==== Sys2Proof/Laws/Streams.lean ====
section
/-! SUPPORT. The streams stand where other machines have a memory: reading after writing, and that every operation keeps the source's position within its content. -/

namespace Sys2Proof.Machine

/-! ### The sink -/

/-- A successful write leaves every byte already there alone. -/
theorem append_byteAt_old (content bs : List Byte) {k : Nat} (h : k < content.length) :
    ((Sink.clean content).append bs).byteAt k = (Sink.clean content).byteAt k := by
  simp [Sink.append, Sink.byteAt, List.getElem?_append_left h]

/-- Reading after a successful write gives the bytes written (R35). -/
theorem append_byteAt_new (content bs : List Byte) (i : Nat) :
    ((Sink.clean content).append bs).byteAt (content.length + i) = bs[i]? := by
  simp only [Sink.append, Sink.byteAt]
  rw [List.getElem?_append_right (Nat.le_add_right _ _), Nat.add_sub_cancel_left]

/-! ### The source -/

theorem wf_iff (c : Source) : c.wf = true ↔ c.pos ≤ c.content.length := by simp [Source.wf]

theorem rest_length (c : Source) : c.rest.length = c.content.length - c.pos := by simp [Source.rest]

/-- Consuming bytes that are there keeps the position within the content (R23). -/
theorem consume_wf {s : State} {n : Nat} (h : s.src.wf = true) (hn : n ≤ s.src.rest.length) :
    (s.consume n).src.wf = true := by
  rw [wf_iff] at *
  rw [rest_length] at hn
  simp only [State.consume_src]
  omega

/-- A failed or abandoned read keeps the position within the content (R36). -/
theorem loseBytes_wf {s : State} (n : Nat) (h : s.src.wf = true) :
    (s.loseBytes n s.src.rest.length).src.wf = true := by
  have hl := failedConsumption_le s n s.src.rest.length
  exact consume_wf h (by omega)

/-- A read keeps the position within the content, whatever the source answers (R34, R36). -/
theorem memRead_wf {s : State} (n : Nat) (r : SourceReply) (h : s.src.wf = true) :
    match memRead n s.src.rest r s with
    | .ok _ t => t.src.wf = true
    | .failed _ t => t.src.wf = true := by
  rcases memRead_cases n s.src.rest r s with ⟨u, _, hl, e⟩ | ⟨x, _, e⟩ <;> rw [e]
  · exact consume_wf h hl
  · exact loseBytes_wf n h

/-- DEC's reset keeps the position within the content (R161). -/
theorem resetDec_wf {s : State} (h : s.src.wf = true) : (resetDec s).src.wf = true := by
  unfold resetDec
  cases s.decState
  · exact h
  · exact loseBytes_wf _ h
  · exact loseBytes_wf _ h

/-- Bytes placed at the position stand there, and the rest of the content behind them. -/
theorem place_rest (c : Source) (bs : List Byte) :
    (c.place bs).rest = bs ++ c.content.drop (c.pos + bs.length) := by
  rw [Source.rest, Source.place]
  simp only [List.append_assoc]
  rw [← List.append_assoc, List.drop_left']
  simp
  omega

/-- Placing bytes keeps the position within the content. -/
theorem place_wf (c : Source) (bs : List Byte) : (c.place bs).wf = true := by
  rw [wf_iff]
  simp only [Source.place, List.length_append, List.length_take, List.length_replicate]
  omega

/-- The source at reset has its position within its content. -/
theorem reset_src_wf : State.reset.src.wf = true := rfl

/-- Consuming takes the bytes off the front of what is left. -/
theorem consume_rest (s : State) (n : Nat) : (s.consume n).src.rest = s.src.rest.drop n := by
  simp [Source.rest, List.drop_drop]

end Sys2Proof.Machine
end

