-- ==== Sys2Proof/Tests/Slice0.lean ====
section
/-! SUPPORT. Tests on words and vectors taken from spec/95_test_vectors.md and worked from the rules, and for every statement with hypotheses a theorem that shows states and operands meeting them. -/

namespace Sys2Proof.Tests

open Sys2Proof Sys2Proof.Machine

/-! ### Small states -/

/-- After reset, with these bytes in the source. -/
def src (bs : List Byte) : State := { State.reset with src := ⟨bs, 0⟩ }

/-- After reset, with these bytes in the source and these answers of it. -/
def srcWith (bs : List Byte) (answers : List (Option SourceReply)) : State :=
  { src bs with srcAnswers := answers }

/-- After reset, with these bytes in the sink and these answers of it. -/
def snkWith (bs : List Byte) (answers : List (Option SinkReply)) : State :=
  { State.reset with snk := .clean bs, snkAnswers := answers }

/-- After reset, with these events to come. -/
def coming (l : List Input) : State := { State.reset with inputs := l }

/-- ENC waits for its sink, having been asked to encode 300. -/
def writing (l : List Input) : State := { coming l with encState := .write, encV := 300 }

/-- DEC waits for the first byte of these. -/
def askingFirst (bs : List Byte) (l : List Input) : State :=
  { src bs with decState := .rdPrefix, inputs := l }

/-- DEC has taken the first of these bytes and waits for the others. -/
def askingRest (p : Byte) (bs : List Byte) (l : List Input) : State :=
  { State.reset with decState := .rdRest, decPrefix := p, src := ⟨p :: bs, 1⟩, inputs := l }

/-- What one looks at in the next state, if there is one. -/
def look {α : Type} (f : State → α) : Host.Outcome State Fault Refusal → Option α
  | .next t => some (f t)
  | .fault _ => none
  | .refused _ => none

/-- The outcomes of DEC in the port events, and the position. -/
def decoded (t : State) : List DecResult × Nat := (t.trace.filterMap PortEvent.decOutcome, t.src.pos)

/-- An error of a stream. -/
def e7 : IoErr := ⟨BitVec.ofNat _ 7⟩

/-! ### Decoding: words written out from the patterns of R55 and R56 (vectors of section 2.4) -/

/-- `vvvvvvv1`. -/
theorem test_decode_l1 : decodeTableWord 8 0b11111111 = some (.l1 127) := by decide
/-- `vvvvvvvv vvvvvv10`, bytes `B2 04`. -/
theorem test_decode_l2 : decodeTableWord 16 0b0000010010110010 = some (.l2 300) := by decide
/-- Bytes `04 12 7A`. -/
theorem test_decode_l3 : decodeTableWord 24 0b011110100001001000000100 = some (.l3 1000000) := by decide
/-- Bytes `08 00 00 02`. -/
theorem test_decode_l4 : decodeTableWord 32 0b00000010000000000000000000001000 = some (.l4 0x200000) := by
  decide
/-- Bytes `F0 DD B7 D5 1B`. -/
theorem test_decode_l5 : decodeTableWord 40 0x1BD5B7DDF0 = some (.l5 0xDEADBEEF) := by decide
/-- Bytes `E0 FF FF FF FF FF`. -/
theorem test_decode_l6 : decodeTableWord 48 0xFFFFFFFFFFE0 = some (.l6 0x3FFFFFFFFFF) := by decide
/-- Bytes `40 00 00 00 00 00 02`. -/
theorem test_decode_l7 : decodeTableWord 56 0x2000000000040 = some (.l7 0x40000000000) := by decide
/-- Bytes `80 32 54 76 98 BA DC FE`. -/
theorem test_decode_l8 : decodeTableWord 64 0xFEDCBA9876543280 = some (.l8 0xFEDCBA98765432) := by decide
/-- Bytes `00 EF CD AB 89 67 45 23 01`. -/
theorem test_decode_l9 : decodeTableWord 72 0x123456789ABCDEF00 = some (.l9 0x123456789ABCDEF) := by decide
/-- The operations are told by their port (R62), and no bits are no instruction. -/
theorem test_decode_operations :
    decode (.port (.bwcValue 300)) = .ok (.sizeOf 300) ∧ decode (.port (.encReq 300)) = .ok (.encode 300) ∧
      decode (.port .decReq) = .ok .decode ∧ decodeTableWord 0 0 = none := by decide
/-- Overlong forms are accepted (section 2.5); bytes that follow are left (R59). -/
theorem test_decode_overlong :
    decodeBytes [0x02, 0x00, 0xAA] = .ok (.l2 0, [0xAA]) ∧
      decodeBytes [0x00, 0x05, 0, 0, 0, 0, 0, 0, 0] = .ok (.l9 5, []) := by decide
/-- Missing bytes are told by name (R101). -/
theorem test_decode_truncated :
    decodeBytes [] = .error .noBytes ∧ decodeBytes [0x04, 0x12] = .error (.truncated 3 2) ∧
      decodeBytes [0x00] = .error (.truncated 9 1) := by decide
/-- The encoder: rows of section 2.2 and an overlong form of section 2.5. -/
theorem test_encode :
    encode (.l5 0xDEADBEEF) = .wire [0xF0, 0xDD, 0xB7, 0xD5, 0x1B] ∧ encode (.l2 1) = .wire [0x06, 0x00] ∧
      encode (.l9 0x100000000000000) = .wire [0, 0, 0, 0, 0, 0, 0, 0, 1] := by decide

/-! ### Well-formedness: the first payload each class cannot carry -/

theorem test_illformed_l1 : (Instr.l1 (BitVec.ofNat 64 (2 ^ 7))).wellFormed = false := by decide
theorem test_illformed_l2 : (Instr.l2 (BitVec.ofNat 64 (2 ^ 14))).wellFormed = false := by decide
theorem test_illformed_l3 : (Instr.l3 (BitVec.ofNat 64 (2 ^ 21))).wellFormed = false := by decide
theorem test_illformed_l4 : (Instr.l4 (BitVec.ofNat 64 (2 ^ 28))).wellFormed = false := by decide
theorem test_illformed_l5 : (Instr.l5 (BitVec.ofNat 64 (2 ^ 35))).wellFormed = false := by decide
theorem test_illformed_l6 : (Instr.l6 (BitVec.ofNat 64 (2 ^ 42))).wellFormed = false := by decide
theorem test_illformed_l7 : (Instr.l7 (BitVec.ofNat 64 (2 ^ 49))).wellFormed = false := by decide
theorem test_illformed_l8 : (Instr.l8 (BitVec.ofNat 64 (2 ^ 56))).wellFormed = false := by decide

/-! ### The operations (sections 2.1 to 2.7) -/

theorem test_sizeOf_boundaries :
    numBytes 0 = 1 ∧ numBytes 127 = 1 ∧ numBytes 128 = 2 ∧ numBytes 0xFFFFFFFFFFFFFF = 8 ∧
      numBytes 0x100000000000000 = 9 ∧ numBytes 0xFFFFFFFFFFFFFFFF = 9 := by decide
theorem test_sizeOf_port : look (·.bwcLen) (exec (.sizeOf 300) State.reset) = some 2 := by decide
theorem test_encode_300 :
    look (fun t => (t.snk, t.trace)) (exec (.encode 300) (snkWith [0x01] [])) =
      some (.clean [0x01, 0xB2, 0x04], [.encReq 300, .snkReq 2 0x4B2, .snkOk, .encDone .ok]) := by decide
theorem test_encode_bytes :
    encBytes 0 = [0x01] ∧ encBytes 128 = [0x02, 0x02] ∧
      encBytes 0xFFFFFFFFFFFFFF = [0x80, 0xFF, 0xFF, 0xFF, 0xFF, 0xFF, 0xFF, 0xFF] ∧
      encBytes 0x100000000000000 = [0, 0, 0, 0, 0, 0, 0, 0, 1] := by decide
theorem test_encode_fails :
    look (fun t => (t.snk, t.encState, t.trace.filterMap PortEvent.encOutcome))
      (exec (.encode 300) (snkWith [0x01] [some (.err e7)])) = some (.poisoned, .idle, [.ioError e7]) := rfl
theorem test_encode_refused :
    exec (.encode 0) { State.reset with snk := .poisoned } = .refused .poisonedSink := rfl
/-- Zero-filling shift of the one-byte form (C1). -/
theorem test_decode_ff : look decoded (exec .decode (src [0xFF, 0x03])) = some ([.ok 127], 1) := by decide
/-- A missing byte is an I/O failure without a value (section 2.6). -/
theorem test_decode_missing_byte :
    look (fun t => t.trace.filterMap PortEvent.decOutcome) (exec .decode (src [0x04])) =
      some [.ioError Config.endOfInput] := rfl
/-- Each WIRE form delivers its payload (section 2.4), with the read requests of R98. -/
theorem test_exec_wire :
    look decoded (exec (.l1 63) (src [0x7F])) = some ([.ok 63], 1) ∧
    look decoded (exec (.l2 4660) (src [0xD2, 0x48])) = some ([.ok 4660], 2) ∧
    look decoded (exec (.l3 0x4000) (src [0x04, 0x00, 0x02])) = some ([.ok 0x4000], 3) ∧
    look decoded (exec (.l4 0xFFFFFFF) (src [0xF8, 0xFF, 0xFF, 0xFF])) = some ([.ok 0xFFFFFFF], 4) ∧
    look decoded (exec (.l5 0x10000000) (src [0x10, 0, 0, 0, 0x02])) = some ([.ok 0x10000000], 5) := by decide
theorem test_exec_wire_long :
    look decoded (exec (.l6 0x800000000) (src [0x20, 0, 0, 0, 0, 0x02])) = some ([.ok 0x800000000], 6) ∧
    look decoded (exec (.l7 0x1FFFFFFFFFFFF) (src [0xC0, 0xFF, 0xFF, 0xFF, 0xFF, 0xFF, 0xFF])) =
      some ([.ok 0x1FFFFFFFFFFFF], 7) ∧
    look decoded (exec (.l8 0xD0B0907050301) (src [0x80, 1, 3, 5, 7, 9, 0x0B, 0x0D])) =
      some ([.ok 0xD0B0907050301], 8) ∧
    look decoded (exec (.l9 0xFFFFFFFFFFFFFFFE) (src [0, 0xFE, 0xFF, 0xFF, 0xFF, 0xFF, 0xFF, 0xFF, 0xFF])) =
      some ([.ok 0xFFFFFFFFFFFFFFFE], 9) := by decide
theorem test_wire_reads :
    look (fun t => t.trace.filterMap PortEvent.readCount)
      (exec (.l9 5) (src [0, 5, 0, 0, 0, 0, 0, 0, 0])) = some [1, 8] := by decide
/-- What the source drives on the unused lanes is ignored (U8). -/
theorem test_unused_lanes :
    look decoded (exec .decode (srcWith [0xB2, 0x04] [some (.yield 0xFFFFFFFFFFFFFFFF),
      some (.yield 0xABCDEF0123456789)])) = some ([.ok 300], 2) := by decide

/-! ### Steps -/

/-- Section 2.9: a reset during a write. -/
theorem test_reset_during_write :
    look (fun t => (t.snk, t.encState, t.trace, t.record)) (step (writing [.rst])) =
      some (.poisoned, .idle, [.rst], [.sinkPoisoned]) := by decide
theorem test_late_sink_reply :
    look (fun t => (t.snk, t.encState)) (step (writing [.sinkReply .ok])) =
      some (.clean [0xB2, 0x04], .idle) := by decide
theorem test_unawaited_reply : step (coming [.sinkReply .ok]) = .fault .unawaitedSinkReply := rfl
theorem test_dec_req_runs_the_form :
    fetched .decReq (src [0xB2, 0x04, 0xAA]) = .l2 300 ∧ fetched .decReq (src [0x04, 0x12]) = .decode := by
  decide
/-- A placed instruction is the first to run after reset. -/
theorem test_placed_word :
    look decoded (step (State.reset.withFetchWord 24 0x7A1204)) = some ([.ok 1000000], 3) ∧
      look decoded (step (State.reset.withFetchWord 72 0x123456789ABCDEF00)) =
        some ([.ok 0x123456789ABCDEF], 9) := by decide
/-- The source's canonical form holds at reset. -/
theorem test_reset_source : State.reset.src.wf = true := by decide

/-! ### Launch premises and the end of a run -/

/-- An `ENCODE` whose sink waits and then answers late. -/
def lateWrite : State := { coming [.request (.encReq 300), .sinkReply .ok] with snkAnswers := [none] }

/-- A late answer is an answer (R168). -/
theorem test_late_answers : EnvAnswers lateWrite := by
  intro k t h
  match k with
  | 0 => cases h; exact ⟨fun hn => absurd rfl hn, fun hn => absurd rfl hn⟩
  | 1 => cases h; exact ⟨fun _ => ⟨1, _, rfl, by decide⟩, fun hn => absurd rfl hn⟩
  | k + 2 =>
    obtain ⟨u, hu, h⟩ := run_succ_cases (M := core) h
    cases hu
    obtain ⟨u, hu, h⟩ := run_succ_cases (M := core) h
    cases hu
    rw [run_of_no_inputs rfl] at h
    cases h
    exact ⟨fun hn => absurd rfl hn, fun hn => absurd rfl hn⟩

/-- A unit that waits with no answer to come does not meet `EnvAnswers` (R168). -/
theorem test_stuck : Stuck (writing []) ∧ ¬ EnvAnswers (writing []) :=
  have h : Stuck (writing []) := ⟨rfl, fun h => by cases h.1⟩
  ⟨h, h.not_answers⟩

/-- The run of `lateWrite` ends after its two events (R172). -/
theorem test_run_ends : ∃ t, RunEnded lateWrite t :=
  by
  refine ⟨_, ⟨2, rfl⟩, fun r h => ?_, ?_, ?_, rfl, rfl⟩
  · cases h
  · rfl
  · rfl

/-- An `ENCODE` that `rst` abandons has delivered no completion, so its run has not ended (R161, R172). -/
theorem test_abandoned_run_has_not_ended :
    ∃ t, Host.Core.run core 2 { coming [.request (.encReq 300), .rst] with snkAnswers := [none] } = .next t ∧
      UnitsIdle t ∧ t.inputs = [] ∧
      ¬ RunEnded { coming [.request (.encReq 300), .rst] with snkAnswers := [none] } t :=
  ⟨_, rfl, ⟨rfl, rfl⟩, rfl, fun h => (by cases h.encodesCompleted)⟩

/-- Just after a complete Encoding, with another one ahead (R163); what lies further back need not be whole. -/
theorem test_source_at_boundary :
    SourceAtBoundary [0xFF] { State.reset with src := ⟨[0x04, 0x02, 0x02, 0xFF], 3⟩ } :=
  ⟨by decide, rfl, .inr ⟨[0x04], [0x02, 0x02], by decide, rfl⟩⟩

/-! ### Witnesses: for each statement with hypotheses, states and operands that meet them -/

theorem witness_TrailingZerosAreCounted : tz8 0 = 8 ∧ (0x80 : Byte) ≠ 0 ∧ tz8 0x80 = 7 := by decide
theorem witness_DecodeOfEncodeIsTheInstruction :
    (Instr.l1 127).wellFormed = true ∧ (Instr.l8 0xFFFFFFFFFFFFFF).wellFormed = true ∧
      (Instr.l9 0xFFFFFFFFFFFFFFFF).wellFormed = true ∧ (Instr.encode 0).wellFormed = true := by decide
theorem witness_EncodeOfDecodeIsTheBytesRead :
    decodeBytes [0xB2, 0x04, 0x99] = .ok (.l2 300, [0x99]) := by decide
theorem witness_EncodingsSplitInOneWay :
    accepted [0x02, 0x02] = true ∧ [0x02, 0x02] <+: ([0x02, 0x02] : List Byte) ∧
      (∀ a ∈ ([[0x01], [0x02, 0x02]] : List (List Byte)), accepted a = true) := by decide
theorem witness_CanonicalIsToldByTheLastByte :
    accepted [0x01] = true ∧ accepted [0x02, 0x02] = true ∧
      accepted [0x80, 0, 0, 0, 0, 0, 0, 2] = true ∧ accepted [0, 0, 0, 0, 0, 0, 0, 0, 1] = true := by decide
theorem witness_BitsCountsSignificantBits :
    (1 : Value) ≠ 0 ∧ bits 1 = 1 ∧ bits 0xFFFFFFFFFFFFFFFF = 64 := by decide
theorem witness_NumBytesIsTheLeastThreshold :
    numBytes 127 ≤ 1 ∧ numBytes 0xFFFFFFFFFFFFFF ≤ 8 ∧ numBytes 0x100000000000000 = 9 := by decide
theorem witness_ComparatorsGiveNumBytes :
    (128 : Value) >>> (7 * 1) ≠ 0 ∧ (0x100000000000000 : Value) >>> (7 * 8) ≠ 0 := by decide
theorem witness_LengthIsANonDecreasingStepFunction :
    (127 : Value).toNat + 1 = 2 ^ (7 * 1) ∧ (0xFFFFFFFFFFFFFF : Value).toNat + 1 = 2 ^ (7 * 8) ∧
      (0xFFFFFFFFFFFFFFFE : Value).toNat + 1 < 2 ^ 64 := by decide
theorem witness_NoLengthStep :
    ¬ ∃ k, 1 ≤ k ∧ k ≤ 8 ∧ (128 : Value).toNat + 1 = 2 ^ (7 * k) := by
  rintro ⟨k, h1, h8, h⟩
  interval_cases k <;> simp at h
theorem witness_EncoderEmitsTheWireFormOfItsClass :
    numBytes 0xFFFFFFFFFFFFFF ≤ 8 ∧ numBytes 0x100000000000000 = 9 := by decide
theorem witness_EncodedBytesHoldTheirSlices :
    numBytes 0x1FFFFFFFFFFFF ≤ 7 ∧ numBytes 0x2000000000000 = 8 ∧ numBytes 0x100000000000000 = 9 := by decide
theorem witness_LengthsAgree :
    (∃ t, exec (.encode 300) (snkWith [] []) = .next t) ∧ ∃ u, exec (.sizeOf 300) State.reset = .next u :=
  ⟨⟨_, rfl⟩, _, rfl⟩
theorem witness_EncodingsAreMinimal :
    accepted [0x02, 0x00] = true ∧ accepted [0, 5, 0, 0, 0, 0, 0, 0, 0] = true := by decide
theorem witness_EncodingsAreUnique :
    encBytes 300 = encBytes (150 + 150) ∧ accepted [0x02, 0x00] = true ∧ accepted [0xFF] = true := by decide
theorem witness_CanonicalSequencesAreTheFixedPoints :
    accepted [0x02, 0x00] = true ∧ accepted [0x02, 0x02] = true := by decide
theorem witness_ReplyValueIsDecValueOfTheBytes :
    prefixLen 0xFF = 1 ∧ ([0x04] : List Byte).length + 1 = prefixLen 0xB2 ∧
      ([0, 0, 0, 0, 0, 0, 2] : List Byte).length + 1 = prefixLen 0x80 ∧
      ([5, 0, 0, 0, 0, 0, 0, 0] : List Byte).length + 1 = prefixLen 0x00 := by decide
theorem witness_SourceReadIsAllOrNothing : 1 ≤ (src [1]).src.rest.length ∧ (src []).src.rest.length < 1 := by
  decide
theorem witness_EncodeAppendsItsEncoding :
    (State.reset.encState = .idle ∧ State.reset.snk = .clean [] ∧ SinkAccepts State.reset) ∧
      SinkAccepts (snkWith [0x01] [some .ok, none]) := ⟨⟨rfl, rfl, rfl⟩, rfl⟩
theorem witness_EncodeFailurePoisonsTheSink :
    (snkWith [0x01] [some (.err e7)]).encState = .idle ∧ (snkWith [0x01] [some (.err e7)]).snk = .clean [0x01] ∧
      (snkWith [0x01] [some (.err e7)]).snkAnswers = some (.err e7) :: [] := by
  and_intros <;> rfl
theorem witness_EncRequestStepIssuesTheWrite :
    ((snkWith [] [none]).encState = .idle ∧ (snkWith [] [none]).snk = .clean [] ∧
      (snkWith [] [none]).snkAnswers = none :: []) ∧ (writing []).encState = .write := by decide
theorem witness_EncodeToAPoisonedSinkIsRefused :
    ({ State.reset with snk := .poisoned } : State).encState = .idle := rfl
theorem witness_LateSinkReplyCompletesEncode :
    ((writing [.sinkReply .ok]).encState = .write ∧ (writing [.sinkReply .ok]).snk = .clean [] ∧
      (writing [.sinkReply .ok]).inputs = .sinkReply .ok :: []) ∧
      (writing [.sinkReply (.err e7)]).inputs = .sinkReply (.err e7) :: [] ∧ (writing []).inputs = [] := by
  and_intros <;> rfl
theorem witness_EncodeOneStepIsItsTwoSteps :
    ∃ t, exec (.encode 300) { State.reset with snkAnswers := none :: [] } = .next t := ⟨_, rfl⟩
theorem witness_EncodeFrame :
    ∃ t, exec (.encode 300) (snkWith [0x01] []) = .next t ∧ t.snk.isPoisoned = false := ⟨_, rfl, rfl⟩
theorem witness_DecodeDeliversTheValueAndConsumesIt :
    ((src [0xFF, 0xAA]).decState = .idle ∧ (src [0xFF, 0xAA]).src.rest = 0xFF :: [] ++ [0xAA] ∧
      accepted [0xFF] = true ∧ SourceYields 1 (src [0xFF, 0xAA])) ∧
    ((srcWith [0xB2, 0x04] [some (.yield 1), some (.yield 2)]).src.rest = 0xB2 :: [0x04] ++ [] ∧
      accepted [0xB2, 0x04] = true ∧ SourceYields 2 (srcWith [0xB2, 0x04] [some (.yield 1), some (.yield 2)])) := by
  refine ⟨⟨rfl, rfl, rfl, by simp [SourceYields, src, State.reset]⟩, rfl, rfl, ?_⟩
  simp [SourceYields, srcWith]
theorem witness_WireFormsDeliverTheirPayload :
    Instr.wireClass (.l1 127) = some (1, 127) ∧ (Instr.l1 127).wellFormed = true ∧
      Instr.wireClass (.l9 5) = some (9, 5) ∧ (Instr.l9 5).wellFormed = true ∧
      State.reset.decState = .idle := by decide
theorem witness_WireFormsDeliverTheirPayload_yields : SourceYields 2 State.reset := by
  simp [SourceYields, State.reset]
theorem witness_DecodeRunsTheWireFormAtThePosition :
    decodeBytes (src [0xB2, 0x04]).src.rest = .ok (.l2 300, []) := by decide
theorem witness_DecodeFirstReadFailure :
    ((srcWith [0xFF] [some (.err e7)]).decState = .idle ∧
      (srcWith [0xFF] [some (.err e7)]).srcAnswers = some (.err e7) :: []) ∧
    ((src []).src.rest = [] ∧ (src []).srcAnswers = []) ∧
    ((srcWith [] [some (.yield 3)]).src.rest = [] ∧
      (srcWith [] [some (.yield 3)]).srcAnswers = some (.yield 3) :: []) := by
  and_intros <;> rfl
theorem witness_DecodeSecondReadFailure :
    (srcWith [0xB2, 0x04] [some (.yield 0), some (.err e7)]).decState = .idle ∧
      (srcWith [0xB2, 0x04] [some (.yield 0), some (.err e7)]).src.rest = 0xB2 :: [0x04] ∧ 2 ≤ prefixLen 0xB2 ∧
      (srcWith [0xB2, 0x04] [some (.yield 0), some (.err e7)]).srcAnswers =
        some (.yield 0) :: some (.err e7) :: [] := by
  and_intros <;> rfl
theorem witness_TruncatedInputNeverDeliversAValue :
    ((∀ p tail, (src [0x04, 0x12]).src.rest = p :: tail → (src [0x04, 0x12]).src.rest.length < prefixLen p) ∧
      (∃ t, exec .decode (src [0x04, 0x12]) = .next t) ∧ none ∉ (src [0x04, 0x12]).srcAnswers.take 2) ∧
    (2 < numBytes 1000000 ∧ (encBytes 1000000).take 2 = 0x04 :: [0x12]) := by
  refine ⟨⟨?_, ⟨_, rfl⟩, by decide⟩, by decide⟩
  intro p tail h
  cases h
  decide
theorem witness_DecodeOutcomes :
    (∃ t, exec .decode (src [0xB2, 0x04]) = .next t ∧ t.decState = .idle) ∧
      (∃ t, exec .decode (srcWith [0xB2, 0x04] [none]) = .next t ∧ t.decState = .rdPrefix) ∧
      ∃ t, exec .decode (srcWith [0xB2, 0x04] [some (.yield 0), none]) = .next t ∧ t.decState = .rdRest :=
  ⟨⟨_, rfl, rfl⟩, ⟨_, rfl, rfl⟩, _, rfl, rfl⟩
theorem witness_DecodeReadRequests :
    (∃ t, exec .decode (src [0xFF]) = .next t) ∧ ∃ t, exec .decode (src [0, 5, 0, 0, 0, 0, 0, 0, 0]) = .next t :=
  ⟨⟨_, rfl⟩, _, rfl⟩
theorem witness_DecodeFrame :
    (∃ t, exec .decode (src [0xB2, 0x04]) = .next t) ∧ Instr.wireClass (.l2 300) = some (2, 300) ∧
      ∃ t, exec (.l2 300) (src [0xB2, 0x04]) = .next t := ⟨⟨_, rfl⟩, rfl, _, rfl⟩
theorem witness_UnusedLanesMakeNoDifference : (src [0xB2, 0x04]).decState = .idle := rfl
theorem witness_DecRequestStepAsksForOneByte :
    ((srcWith [] [none]).decState = .idle ∧ (srcWith [] [none]).srcAnswers = none :: []) ∧
      (askingFirst [] []).decState ≠ .idle ∧ (askingRest 0xB2 [] []).decState ≠ .idle := by decide
theorem witness_LateSourceRepliesDriveDecode :
    ((askingFirst [0xFF] [.sourceReply (.yield 0)]).decState = .rdPrefix ∧
      (askingFirst [0xFF] [.sourceReply (.yield 0)]).src.rest = 0xFF :: [] ∧ prefixLen 0xFF = 1) ∧
    ((askingFirst [0xB2, 4] []).src.rest = 0xB2 :: [4] ∧ 2 ≤ prefixLen 0xB2) ∧
    ((askingRest 0xB2 [4] [.sourceReply (.yield 0)]).decState = .rdRest ∧
      prefixLen 0xB2 - 1 ≤ (askingRest 0xB2 [4] []).src.rest.length) ∧
    ((askingRest 0xB2 [4] [.sourceReply (.err e7)]).decState ≠ .idle) ∧
    ((askingRest 0x04 [0x12] [.sourceReply (.yield 0)]).src.rest.length < prefixLen 0x04 - 1 ∧
      (askingFirst [] [.sourceReply (.yield 0)]).src.rest.length < 1) ∧ (askingFirst [] []).inputs = [] := by
  decide
theorem witness_DecodeOneStepIsItsSteps :
    (∃ t, exec .decode { src [0xB2, 4] with srcAnswers := none :: [] } = .next t) ∧
      ((src [0xB2, 4]).src.rest = 0xB2 :: [4] ∧ 2 ≤ prefixLen 0xB2) ∧
      ∃ t, exec .decode { src [0xB2, 4] with srcAnswers := some (.yield 0) :: none :: [] } = .next t :=
  ⟨⟨_, rfl⟩, by decide, _, rfl⟩
theorem witness_RstAbandonsWithoutCompletion :
    (coming [.rst]).inputs = .rst :: [] ∧ (coming [.rst]).encState = .idle ∧ (coming [.rst]).decState = .idle ∧
      (writing [.rst]).encState = .write ∧ (askingFirst [1] [.rst]).decState = .rdPrefix ∧
      (askingRest 0xB2 [4] [.rst]).decState = .rdRest := by decide
theorem witness_StepRunsTheFetchedInstruction :
    (coming [.request (.bwcValue 3)]).inputs = .request (.bwcValue 3) :: [] ∧
      (coming [.request (.encReq 3)]).inputs = .request (.encReq 3) :: [] ∧
      (coming [.request .decReq]).inputs = .request .decReq :: [] ∧
      decodeBytes (src [0xB2, 4]).src.rest = .ok (.l2 300, []) ∧
      decodeBytes (coming [.request .decReq]).src.rest = .error .noBytes := by decide
theorem witness_StepPerformsTheRequestedOperation :
    (coming [.request .decReq, .rst]).inputs = .request .decReq :: [.rst] := rfl
theorem witness_PlacedWordIsRunNext : decodeTableWord 16 0x04B2 = some (.l2 300) := by decide
theorem witness_NothingHappensWithoutAnEvent : State.reset.inputs = [] ∧ (writing []).inputs = [] := by decide
theorem witness_OnlyReplyOrResetReleasesAUnit :
    (∃ t, step (writing [.request .decReq]) = .next t) ∧
      ∃ t, step (askingFirst [1] [.request (.encReq 0)]) = .next t := ⟨⟨_, rfl⟩, _, rfl⟩
theorem witness_EventsWithoutAStep :
    (coming [.sinkReply .ok]).encState = .idle ∧ (coming [.sourceReply (.yield 0)]).decState = .idle ∧
      (coming [.otherSinkUser]).inputs = .otherSinkUser :: [] ∧
      (coming [.otherSourceUser]).inputs = .otherSourceUser :: [] := by decide
theorem inv_coming (l : List Input) : Inv (coming l) := by
  constructor <;> simp [coming, State.reset]
theorem witness_EveryStepKeepsTheInvariant :
    Inv (coming [.request (.encReq 300)]) ∧ ∃ t, step (coming [.request (.encReq 300)]) = .next t :=
  ⟨inv_coming _, _, rfl⟩
theorem witness_StepsOnlyMoveForward :
    ∃ t, step { coming [.rst] with snk := .poisoned } = .next t := ⟨_, rfl⟩
theorem witness_IdleLatchesAreNotRead :
    UnitsIdle (coming [.request .decReq]) ∧ ∃ t, step (coming [.request .decReq]) = .next t :=
  ⟨⟨rfl, rfl⟩, _, rfl⟩
theorem witness_EncAndDecAreIndependent :
    (∃ t, exec (.encode 300) (src [0xFF]) = .next t) ∧ ∃ t, exec .decode (src [0xFF]) = .next t :=
  ⟨⟨_, rfl⟩, _, rfl⟩
theorem witness_EncodesConcatenate :
    (coming [.request (.encReq 0), .request (.encReq 127)]).snkAnswers = [] ∧
      (coming [.request (.encReq 0), .request (.encReq 127)]).inputs =
        [0, 127].map (fun v => .request (.encReq v)) ++ [] := by decide
/-- The stream of programs P1 and P2, its first three Encodings. -/
theorem witness_DecodesReturnTheValuesInOrder :
    (src [0x01, 0xFF, 0x02, 0x02]).srcAnswers = [] ∧
      (src [0x01, 0xFF, 0x02, 0x02]).src.rest = [0, 127, 128].flatMap encBytes ++ [] := by decide

end Sys2Proof.Tests
end

section
/-! A request runs the operation of its port, whatever the fetch finds (R62), and the steps by their event. -/

namespace Sys2Proof.Machine

/-! ### The bytes of the WIRE form that was read -/

/-- The integer of the WIRE form that the decoder reads off an Encoding is that of the Encoding (R55, R56, R59): below
nine bytes the marker bit is all that the shift drops. -/
theorem wireInt_payload (p : Byte) (more : List Byte) (hl : (p :: more).length = prefixLen p) :
    wireInt (prefixLen p) (BitVec.ofNat 64 (le (p :: more) >>> min (prefixLen p) 8)) = le (p :: more) := by
  have hlt := le_lt (p :: more)
  rw [hl] at hlt
  have hpos := prefixLen_pos p
  rcases Nat.lt_or_ge 8 (prefixLen p) with h9 | h8
  · have h9 : prefixLen p = 9 := by have := prefixLen_le p; omega
    rw [h9] at hlt ⊢
    rw [wireInt_hi, BitVec.toNat_ofNat, Nat.shiftRight_eq_div_pow, le_cons, prefix_nine p h9] at *
    simp at *
    omega
  · have hmod : le (p :: more) % 2 ^ prefixLen p = 2 ^ (prefixLen p - 1) := by
      obtain ⟨k, hk⟩ : 2 ^ prefixLen p ∣ 256 * le more :=
        Dvd.dvd.mul_right (Nat.pow_dvd_pow 2 h8 : 2 ^ prefixLen p ∣ 2 ^ 8) _
      rw [le_cons, hk, Nat.add_mul_mod_self_left, prefix_mod p h8]
    have hfit : le (p :: more) / 2 ^ prefixLen p < 2 ^ 64 := by
      refine (Nat.div_le_self _ _).trans_lt (hlt.trans_le ?_)
      exact (Nat.pow_le_pow_right (by omega) h8).trans (by decide)
    rw [wireInt_lo _ hpos h8, BitVec.toNat_ofNat, Nat.min_eq_left h8, Nat.shiftRight_eq_div_pow,
      Nat.mod_eq_of_lt hfit, ← hmod, Nat.mul_comm, Nat.div_add_mod]

/-- The WIRE form that the decoder reads off the front of a sequence has the bytes that were read (R59, R60). -/
theorem wireBytes_payload (p : Byte) (rest : List Byte) (h : prefixLen p ≤ (p :: rest).length) :
    wireBytes (prefixLen p)
        (BitVec.ofNat 64 (le ((p :: rest).take (prefixLen p)) >>> min (prefixLen p) 8)) =
      (p :: rest).take (prefixLen p) := by
  obtain ⟨more, hmore⟩ : ∃ more, (p :: rest).take (prefixLen p) = p :: more :=
    ⟨rest.take (tz8 p), rfl⟩
  have hl : (p :: more).length = prefixLen p := by rw [← hmore, List.length_take, Nat.min_eq_left h]
  rw [hmore, wireBytes, wireInt_payload p more hl]
  conv_lhs => rw [← hl]
  exact bytesLE_le _

/-! ### What lies behind the bytes asked for makes no difference to a read -/

/-- Only the bytes asked for bound the loss of a failed read (R36). -/
theorem loseBytes_min (s : State) (n m avail : Nat) (h : n ≤ m) :
    s.loseBytes n (min m avail) = s.loseBytes n avail := by
  have : min n (min m avail) = min n avail := by omega
  rw [State.loseBytes, State.loseBytes, State.failedConsumption, State.failedConsumption, this]

theorem memRead_take {n m : Nat} (h : n ≤ m) (next : List Byte) (r : SourceReply) (s : State) :
    memRead n (next.take m) r s = memRead n next r s := by
  have hn : n ≤ min m next.length ↔ n ≤ next.length := by omega
  cases r with
  | yield upper => simp only [memRead, List.length_take, List.take_take, Nat.min_eq_left h, hn,
      loseBytes_min s n m _ h]
  | err e => simp only [memRead, List.length_take, loseBytes_min s n m _ h]

theorem decReplyRest_take {m : Nat} {s : State} (h : prefixLen s.decPrefix - 1 ≤ m) (next : List Byte)
    (r : SourceReply) : decReplyRest (next.take m) r s = decReplyRest next r s := by
  rw [decReplyRest, decReplyRest, memRead_take h]

/-- A read request whose reply steps agree is answered alike. -/
theorem withSrcAnswer_congr {k k' : SourceReply → State → State} {s : State}
    (h : ∀ r l, k r (s.setSrcAnswers l) = k' r (s.setSrcAnswers l)) : s.withSrcAnswer k = s.withSrcAnswer k' := by
  have h0 : s.setSrcAnswers s.srcAnswers = s := rfl
  rcases ha : s.srcAnswers with _ | ⟨_ | r, l⟩
  · rw [withSrcAnswer_nil k ha, withSrcAnswer_nil k' ha, ← h0, h]
  · rw [withSrcAnswer_none k ha, withSrcAnswer_none k' ha]
  · rw [withSrcAnswer_some k ha, withSrcAnswer_some k' ha, h]

theorem decReplyPrefix_yield_cons (p : Byte) (tail : List Byte) (upper : BitVec 64) (s : State) :
    decReplyPrefix (p :: tail) (.yield upper) s =
      if prefixLen p = 1 then ((s.consume 1).emit (.srcOk (srcLanes [p] upper))).decodeDone (shortValue p)
      else (decAskRest p ((s.consume 1).emit (.srcOk (srcLanes [p] upper)))).withSrcAnswer
        (decReplyRest tail) := by
  rw [decReplyPrefix, memRead_yield upper s (by simp)]
  simp

theorem decReplyPrefix_take (p : Byte) (rest : List Byte) (r : SourceReply) (s : State) :
    decReplyPrefix ((p :: rest).take (prefixLen p)) r s = decReplyPrefix (p :: rest) r s := by
  cases r with
  | yield u =>
    rw [prefixLen, List.take_succ_cons, decReplyPrefix_yield_cons, decReplyPrefix_yield_cons]
    split
    · rfl
    · exact withSrcAnswer_congr fun r l => decReplyRest_take (Nat.le_refl _) rest r
  | err e => rw [decReplyPrefix, decReplyPrefix, memRead_take (prefixLen_pos p)]; rfl

/-- A decode of a whole Encoding is the decode of any sequence it stands in front of (R61). -/
theorem decodeFrom_take (p : Byte) (rest : List Byte) (s : State) :
    decodeFrom ((p :: rest).take (prefixLen p)) s = decodeFrom (p :: rest) s := by
  rw [decodeFrom, decodeFrom, withSrcAnswer_congr fun r l => decReplyPrefix_take p rest r _]

/-- Whatever the fetch finds, a request runs the operation of its port (R62, R99). -/
theorem exec_fetched (r : Request) (s : State) : exec (fetched r s) s = exec (decodeRequest r) s := by
  cases r with
  | bwcValue v => rfl
  | encReq v => rfl
  | decReq =>
    have hdec : exec (decodeRequest .decReq) s = decodeFrom s.src.rest s := rfl
    cases hd : decodeBytes s.src.rest with
    | error e => simp only [fetched, hd, hdec]
    | ok it =>
      obtain ⟨i, tail⟩ := it
      simp only [fetched, hd, hdec]
      cases hr : s.src.rest with
      | nil => rw [hr] at hd; cases hd
      | cons p more =>
        rw [hr, decodeBytes_cons] at hd
        split at hd
        · cases hd
        · next hlen =>
          cases hd
          rw [exec_wire (wireInstr_class _ (prefixLen_pos p) (prefixLen_le p)),
            wireBytes_payload p more (Nat.not_lt.1 hlen), decodeFrom_take]

/-! ### A step, by its event -/

theorem step_of_no_input {s : State} (h : s.inputs = []) : step s = .next s := by simp only [step, h]

section
variable {s : State} {l : List Input}

theorem step_of_request {r : Request} (h : s.inputs = .request r :: l) :
    step s = exec (decodeRequest r) (s.setInputs l) := by simp only [step, h, exec_fetched]

theorem step_of_sinkReply {r : SinkReply} (h : s.inputs = .sinkReply r :: l) (hw : s.encState = .write) :
    step s = .next (encReply r (s.setInputs l)) := by
  simp only [step, h, sinkReplyEvent, State.setInputs_encState, hw]

theorem step_of_prefixReply {r : SourceReply} (h : s.inputs = .sourceReply r :: l)
    (hd : s.decState = .rdPrefix) : step s = .next (decReplyPrefix s.src.rest r (s.setInputs l)) := by
  simp only [step, h, sourceReplyEvent, State.setInputs_decState, State.setInputs_src, hd]

theorem step_of_restReply {r : SourceReply} (h : s.inputs = .sourceReply r :: l) (hd : s.decState = .rdRest) :
    step s = .next (decReplyRest s.src.rest r (s.setInputs l)) := by
  simp only [step, h, sourceReplyEvent, State.setInputs_decState, State.setInputs_src, hd]

theorem step_of_rst (h : s.inputs = .rst :: l) : step s = .next (resetEvent (s.setInputs l)) := by
  simp only [step, h, rstEvent]

end

end Sys2Proof.Machine
end

section
/-! What the event of one step does, and what a move of ENC or of DEC leaves alone. -/

namespace Sys2Proof.Machine

/-! ### The event `rst`, unit by unit -/

@[simp] theorem resetEnc_encState (s : State) : (resetEnc s).encState = .idle := rfl

@[simp] theorem resetDec_decState (s : State) : (resetDec s).decState = .idle := rfl

theorem resetEnc_of_idle {s : State} (h : s.encState = .idle) :
    resetEnc s = { s with encState := .idle, encV := Config.freeEncV s.draws } := by
  simp only [resetEnc, h]; rfl

theorem resetEnc_of_write {s : State} (h : s.encState = .write) :
    resetEnc s =
      { s with
        encState := .idle
        encV := Config.freeEncV s.draws
        snk := .poisoned
        record := s.record ++ [.sinkPoisoned] } := by
  simp only [resetEnc, h]; rfl

/-- How many bytes the read request under way asks for; none when DEC is idle (R102, R103). -/
def State.bytesAsked (s : State) : Nat :=
  match s.decState with
  | .idle => 0
  | .rdPrefix => 1
  | .rdRest => prefixLen s.decPrefix - 1

/-- DEC's reset: some of the bytes asked for are lost, the latch is free, nothing is delivered (R160, R161). -/
theorem resetDec_eq (s : State) :
    resetDec s =
      { s with
        decState := .idle
        decPrefix := Config.freeDecPrefix s.draws
        src := { s.src with pos := s.src.pos + s.failedConsumption s.bytesAsked s.src.rest.length }
        draws := s.draws + 1 } := by
  cases h : s.decState <;> simp only [resetDec, State.bytesAsked, h]
  case idle => simp [State.failedConsumption, State.tick, State.setDecState, State.setDecPrefix, Nat.mod_one]
  case rdPrefix => rfl
  case rdRest => rfl

/-! ### What one event does -/

/-- What a step does with an event, once the event is taken off the events to come. -/
inductive Taken (s : State) : State → Prop
  | sizeOf (v : Value) : Taken s (s.setBwcValue v)
  | encode {v : Value} {t : State} (h : execEncode v s = .next t) : Taken s t
  | decode {t : State} (h : execDecode s = .next t) : Taken s t
  | sinkReply (r : SinkReply) (h : s.encState = .write) : Taken s (encReply r s)
  | prefixReply (r : SourceReply) (h : s.decState = .rdPrefix) : Taken s (decReplyPrefix s.src.rest r s)
  | restReply (r : SourceReply) (h : s.decState = .rdRest) : Taken s (decReplyRest s.src.rest r s)
  | rst : Taken s (resetEvent s)

/-- A step without an event changes nothing; any other takes its event (R173). -/
theorem step_taken {s t : State} (h : step s = .next t) : t = s ∨ ∃ l, Taken (s.setInputs l) t := by
  rcases step_cases h with ⟨-, rfl⟩ | ⟨l, ⟨r, -, h⟩ | ⟨r, -, hw, rfl⟩ | ⟨r, -, hd, rfl⟩ | ⟨r, -, hd, rfl⟩ |
    ⟨-, rfl⟩⟩
  · exact .inl rfl
  · refine .inr ⟨l, ?_⟩
    rw [exec_fetched] at h
    cases r with
    | bwcValue v => cases h; exact .sizeOf v
    | encReq v => exact .encode h
    | decReq => exact .decode h
  · exact .inr ⟨l, .sinkReply r hw⟩
  · exact .inr ⟨l, .prefixReply r hd⟩
  · exact .inr ⟨l, .restReply r hd⟩
  · exact .inr ⟨l, .rst⟩

@[simp] theorem encReply_encState (r : SinkReply) (s : State) : (encReply r s).encState = .idle := by
  cases r with
  | ok => rw [encReply_ok]
  | err e => rw [encReply_err]

/-- What `ENCODE` can come to: it waits, it appends its Encoding, or the sink fails (R83, R85). -/
theorem execEncode_cases {v : Value} {s t : State} (h : execEncode v s = .next t) :
    s.encState = .idle ∧ ∃ content, s.snk = .clean content ∧
    ((∃ l, t = { s with
        encState := .write
        encV := v
        snkAnswers := l
        trace := s.trace ++ [.encReq v, .snkReq (snkLen v) (snkData v)] }) ∨
     (∃ l, t = { s with
        encV := v
        snk := .clean (content ++ encBytes v)
        snkAnswers := l
        trace := s.trace ++ [.encReq v, .snkReq (snkLen v) (snkData v), .snkOk, .encDone .ok] }) ∨
     (∃ e l, t = { s with
        encV := v
        snk := .poisoned
        snkAnswers := l
        record := s.record ++ [.sinkPoisoned, .ioError .x1 e]
        trace := s.trace ++
          [.encReq v, .snkReq (snkLen v) (snkData v), .snkErr e, .encDone (.ioError e)] })) := by
  obtain ⟨hi, ⟨content, hc⟩, rfl⟩ := execEncode_next h
  refine ⟨hi, content, hc, ?_⟩
  rcases withSnkAnswer_cases (encRequest v s) encReply with ⟨l, h⟩ | ⟨r, l, h⟩ <;> rw [h]
  · exact .inl ⟨l, by simp [encRequest_eq, State.setSnkAnswers]⟩
  · cases r with
    | ok =>
      exact .inr (.inl ⟨l, by simp [encReply_ok, encRequest_eq, State.setSnkAnswers, Sink.append, hi, hc]⟩)
    | err e =>
      exact .inr (.inr ⟨e, l, by simp [encReply_err, encRequest_eq, State.setSnkAnswers, hi]⟩)

/-! ### Port events and record grow together -/

/-- `t` has the port events and the record of `s` and more, and what was added shows the same failures (R26). -/
def LogGrows (s t : State) : Prop :=
  ∃ ev en, t.trace = s.trace ++ ev ∧ t.record = s.record ++ en ∧
    ev.filterMap PortEvent.failure = en.filterMap FaultEntry.failure

theorem LogGrows.refl (s : State) : LogGrows s s := ⟨[], [], by simp, by simp, rfl⟩

theorem LogGrows.trans {s t u : State} (h : LogGrows s t) (h' : LogGrows t u) : LogGrows s u := by
  obtain ⟨ev, en, ht, hr, hf⟩ := h
  obtain ⟨ev', en', ht', hr', hf'⟩ := h'
  exact ⟨ev ++ ev', en ++ en', by rw [ht', ht, List.append_assoc], by rw [hr', hr, List.append_assoc],
    by rw [List.filterMap_append, List.filterMap_append, hf, hf']⟩

theorem LogGrows.trace_prefix {s t : State} (h : LogGrows s t) : s.trace <+: t.trace := by
  obtain ⟨ev, en, ht, hr, hf⟩ := h
  exact ⟨ev, ht.symm⟩

theorem LogGrows.record_prefix {s t : State} (h : LogGrows s t) : s.record <+: t.record := by
  obtain ⟨ev, en, ht, hr, hf⟩ := h
  exact ⟨en, hr.symm⟩

theorem LogGrows.keeps_failures {s t : State} (h : LogGrows s t)
    (hs : s.trace.filterMap PortEvent.failure = s.record.filterMap FaultEntry.failure) :
    t.trace.filterMap PortEvent.failure = t.record.filterMap FaultEntry.failure := by
  obtain ⟨ev, en, ht, hr, hf⟩ := h
  rw [ht, hr, List.filterMap_append, List.filterMap_append, hs, hf]

/-! ### What a move of one unit leaves alone -/

/-- A move of ENC: DEC and its source stand still, a poisoned sink stays so, a new poisoning is recorded. -/
structure EncMove (s t : State) : Prop where
  decState : t.decState = s.decState
  decPrefix : t.decPrefix = s.decPrefix
  src : t.src = s.src
  staysPoisoned : s.snk = .poisoned → t.snk = .poisoned
  poisoningRecorded : t.snk = .poisoned → s.snk = .poisoned ∨ .sinkPoisoned ∈ t.record
  log : LogGrows s t

/-- A move of DEC: ENC and its sink stand still, the source's content too, its position never goes back. -/
structure DecMove (s t : State) : Prop where
  encState : t.encState = s.encState
  snk : t.snk = s.snk
  content : t.src.content = s.src.content
  pos : s.src.pos ≤ t.src.pos
  log : LogGrows s t

theorem DecMove.trans {s t u : State} (h : DecMove s t) (h' : DecMove t u) : DecMove s u where
  encState := h'.encState.trans h.encState
  snk := h'.snk.trans h.snk
  content := h'.content.trans h.content
  pos := h.pos.trans h'.pos
  log := h.log.trans h'.log

theorem encMove_setInputs (s : State) (l : List Input) : EncMove s (s.setInputs l) :=
  ⟨rfl, rfl, rfl, id, .inl, LogGrows.refl s⟩

theorem encMove_setBwcValue (s : State) (v : Value) : EncMove s (s.setBwcValue v) :=
  ⟨rfl, rfl, rfl, id, .inl, LogGrows.refl s⟩

/-- ENC's reply step: only a failure poisons the sink, and it is recorded with its cause (R85, R26). -/
theorem encMove_encReply (r : SinkReply) (s : State) : EncMove s (encReply r s) := by
  cases r with
  | ok =>
    rw [encReply_ok]
    refine ⟨rfl, rfl, rfl, fun h => by simp only [h, Sink.append], ?_, [.snkOk, .encDone .ok], [], ?_⟩
    · cases h : s.snk <;> simp [Sink.append]
    · exact ⟨by simp, by simp, rfl⟩
  | err e =>
    rw [encReply_err]
    exact ⟨rfl, rfl, rfl, fun _ => rfl, fun _ => .inr (by simp),
      [.snkErr e, .encDone (.ioError e)], [.sinkPoisoned, .ioError .x1 e], by simp, by simp, rfl⟩

theorem encMove_encode {v : Value} {s t : State} (h : execEncode v s = .next t) : EncMove s t := by
  obtain ⟨-, content, hc, ⟨l, rfl⟩ | ⟨l, rfl⟩ | ⟨e, l, rfl⟩⟩ := execEncode_cases h
  · exact ⟨rfl, rfl, rfl, id, .inl, _, [], rfl, by simp, rfl⟩
  · exact ⟨rfl, rfl, rfl, by simp [hc], by simp, _, [], rfl, by simp, rfl⟩
  · exact ⟨rfl, rfl, rfl, fun _ => rfl, fun _ => .inr (by simp), _, _, rfl, rfl, rfl⟩

/-- ENC's part of the event `rst` (R160, R161). -/
theorem encMove_rst (s : State) : EncMove s (resetEnc (s.emit .rst)) := by
  cases h : s.encState
  · rw [resetEnc_of_idle (s := s.emit .rst) h]
    exact ⟨rfl, rfl, rfl, id, .inl, [.rst], [], rfl, by simp, rfl⟩
  · rw [resetEnc_of_write (s := s.emit .rst) h]
    exact ⟨rfl, rfl, rfl, fun _ => rfl, fun _ => .inr (by simp), [.rst], [.sinkPoisoned], rfl, rfl, rfl⟩

theorem decMove_resetDec (s : State) : DecMove s (resetDec s) := by
  rw [resetDec_eq]
  exact ⟨rfl, rfl, rfl, Nat.le_add_right _ _, LogGrows.refl s⟩

theorem decMove_decode {next : List Byte} {s t : State} (h : decodeFrom next s = .next t) : DecMove s t := by
  obtain ⟨-, h⟩ := decodeFrom_cases h
  rcases h with ⟨l, rfl⟩ | ⟨e, l, rfl⟩ | ⟨p, tail, u, l, -, -, rfl⟩ | ⟨p, tail, u, l, -, -, rfl⟩ |
    ⟨p, tail, u, u2, l, -, -, -, rfl⟩ | ⟨p, tail, u, e, l, -, -, rfl⟩
  · exact ⟨rfl, rfl, rfl, Nat.le_refl _, _, [], rfl, by simp, rfl⟩
  · exact ⟨rfl, rfl, rfl, Nat.le_add_right _ _, _, _, rfl, rfl, rfl⟩
  · exact ⟨rfl, rfl, rfl, Nat.le_add_right _ _, _, [], rfl, by simp, rfl⟩
  · exact ⟨rfl, rfl, rfl, Nat.le_add_right _ _, _, [], rfl, by simp, rfl⟩
  · exact ⟨rfl, rfl, rfl, by simp only; omega, _, [], rfl, by simp, rfl⟩
  · exact ⟨rfl, rfl, rfl, by simp only; omega, _, _, rfl, rfl, rfl⟩

theorem decMove_decReplyRest (next : List Byte) (r : SourceReply) (s : State) :
    DecMove s (decReplyRest next r s) := by
  rcases decReplyRest_cases next r s with ⟨u, -, -, h⟩ | ⟨e, -, h⟩ <;> rw [h]
  · exact ⟨rfl, rfl, rfl, Nat.le_add_right _ _, [.srcOk _, .decDone (.ok _)], [],
      by simp only [decodeDone_eq, State.emit_trace, State.consume_trace, List.append_assoc]; rfl,
      by simp [decodeDone_eq], rfl⟩
  · exact ⟨rfl, rfl, rfl, Nat.le_add_right _ _, [.srcErr e, .decDone (.ioError e)], [.ioError .x3 e],
      by simp [raiseIoFailure_x3, loseBytes_eq], by simp [raiseIoFailure_x3, loseBytes_eq], rfl⟩

theorem decMove_decReplyPrefix (next : List Byte) (r : SourceReply) (s : State) :
    DecMove s (decReplyPrefix next r s) := by
  rcases decReplyPrefix_cases next r s with ⟨u, p, tail, -, -, h⟩ | ⟨e, -, h⟩ <;> rw [h]
  · split
    · exact ⟨rfl, rfl, rfl, Nat.le_add_right _ _, [.srcOk (srcLanes [p] u), .decDone (.ok (shortValue p))], [],
        by simp [decodeDone_eq], by simp [decodeDone_eq], rfl⟩
    · have hask : ∀ l, DecMove s
          ((decAskRest p ((s.consume 1).emit (.srcOk (srcLanes [p] u)))).setSrcAnswers l) := fun l =>
        ⟨rfl, rfl, rfl, Nat.le_add_right _ _,
          [.srcOk (srcLanes [p] u), .srcReq (BitVec.ofNat 4 (prefixLen p - 1))], [],
          by simp [decAskRest_eq], by simp [decAskRest_eq], rfl⟩
      rcases withSrcAnswer_cases (decAskRest p ((s.consume 1).emit (.srcOk (srcLanes [p] u))))
        (decReplyRest tail) with ⟨l, h⟩ | ⟨r, l, h⟩ <;> rw [h]
      · exact hask l
      · exact (hask l).trans (decMove_decReplyRest tail r _)
  · exact ⟨rfl, rfl, rfl, Nat.le_add_right _ _, [.srcErr e, .decDone (.ioError e)], [.ioError .x2 e],
      by simp [raiseIoFailure_x2, loseBytes_eq], by simp [raiseIoFailure_x2, loseBytes_eq], rfl⟩

end Sys2Proof.Machine
end

section
/-! Nothing is taken back, the invariant, the frames of the operations, and the event `rst`. -/

namespace Sys2Proof.Machine

/-- Every step is a move of ENC followed by a move of DEC, where either may be none. -/
theorem Taken.moves {s t : State} (h : Taken s t) : ∃ u, EncMove s u ∧ DecMove u t := by
  have stay : ∀ u, DecMove u u := fun u => ⟨rfl, rfl, rfl, Nat.le_refl _, LogGrows.refl u⟩
  have same : EncMove s s := encMove_setInputs s s.inputs
  cases h with
  | sizeOf v => exact ⟨_, encMove_setBwcValue s v, stay _⟩
  | encode h => exact ⟨_, encMove_encode h, stay _⟩
  | decode h => exact ⟨_, same, decMove_decode h⟩
  | sinkReply r h => exact ⟨_, encMove_encReply r s, stay _⟩
  | prefixReply r h => exact ⟨_, same, decMove_decReplyPrefix _ r s⟩
  | restReply r h => exact ⟨_, same, decMove_decReplyRest _ r s⟩
  | rst => exact ⟨_, encMove_rst s, decMove_resetDec _⟩

/-- Settles O56: a step is a move of ENC and one of DEC, and neither takes anything back. -/
theorem stepsOnlyMoveForward : Obligations.StepsOnlyMoveForward := by
  intro s t h
  rcases step_taken h with rfl | ⟨l, h⟩
  · exact ⟨rfl, Nat.le_refl _, List.prefix_rfl, List.prefix_rfl, id⟩
  · obtain ⟨u, enc, dec⟩ := h.moves
    have hsrc : u.src = s.src := enc.src
    have hlog := enc.log.trans dec.log
    refine ⟨dec.content.trans (by rw [hsrc]), hsrc ▸ dec.pos, hlog.record_prefix, hlog.trace_prefix, fun hp => ?_⟩
    rw [dec.snk]
    exact enc.staysPoisoned hp

/-! ### The invariant -/

/-- The part of the invariant that speaks of DEC and its source. -/
structure DecSound (s : State) : Prop where
  wf : s.src.wf = true
  latched : s.decState = .rdRest →
    2 ≤ prefixLen s.decPrefix ∧ 1 ≤ s.src.pos ∧ s.src.content[s.src.pos - 1]? = some s.decPrefix

theorem Inv.wf {s : State} (h : Inv s) : s.src.wf = true := (wf_iff _).2 h.posInContent

/-- With no second read under way, the position is all that DEC's part asks about. -/
theorem DecSound.of_wf {s : State} (h : s.src.wf = true) (hd : s.decState ≠ .rdRest) : DecSound s :=
  ⟨h, fun hr => absurd hr hd⟩

/-- A move of ENC keeps the invariant if it waits for a write only where the sink is clean. -/
theorem Inv.of_encMove {s t : State} (h : Inv s) (m : EncMove s t)
    (hw : t.encState = .write → t.snk.isPoisoned = false) : Inv t where
  posInContent := m.src ▸ h.posInContent
  writeToCleanSink := hw
  restIsLonger hd := m.decPrefix ▸ h.restIsLonger (m.decState ▸ hd)
  prefixIsConsumed hd := by
    rw [m.src, m.decPrefix]
    exact h.prefixIsConsumed (m.decState ▸ hd)
  poisonRecorded hp := (m.poisoningRecorded hp).elim
    (fun hs => m.log.record_prefix.subset (h.poisonRecorded hs)) id
  failuresRecorded := m.log.keeps_failures h.failuresRecorded

/-- A move of DEC keeps the invariant if it leaves DEC's part sound. -/
theorem Inv.of_decMove {s t : State} (h : Inv s) (m : DecMove s t) (hd : DecSound t) : Inv t where
  posInContent := (wf_iff _).1 hd.wf
  writeToCleanSink hw := m.snk ▸ h.writeToCleanSink (m.encState ▸ hw)
  restIsLonger hr := (hd.latched hr).1
  prefixIsConsumed hr := (hd.latched hr).2
  poisonRecorded hp := m.log.record_prefix.subset (h.poisonRecorded (m.snk ▸ hp))
  failuresRecorded := m.log.keeps_failures h.failuresRecorded

theorem decSound_decReplyRest (r : SourceReply) {s : State} (h : s.src.wf = true) :
    DecSound (decReplyRest s.src.rest r s) := by
  rcases decReplyRest_cases s.src.rest r s with ⟨u, -, hl, e⟩ | ⟨x, -, e⟩ <;> rw [e]
  · exact .of_wf (consume_wf h hl) (by simp [decodeDone_eq])
  · exact .of_wf (loseBytes_wf _ h) (by simp [raiseIoFailure_x3])

/-- The byte in front of the rest is the one at the position. -/
theorem content_pos_of_rest {c : Source} {p : Byte} {tail : List Byte} (h : c.rest = p :: tail) :
    c.content[c.pos]? = some p := by
  rw [← List.head?_drop, show c.content.drop c.pos = p :: tail from h, List.head?_cons]

/-- The byte latched for a longer Encoding is the one just consumed (R103). -/
theorem decSound_decReplyPrefix (r : SourceReply) {s : State} (h : s.src.wf = true) :
    DecSound (decReplyPrefix s.src.rest r s) := by
  rcases decReplyPrefix_cases s.src.rest r s with ⟨u, p, tail, -, hr, e⟩ | ⟨x, -, e⟩ <;> rw [e]
  · have hwf : (s.consume 1).src.wf = true := consume_wf h (by simp [hr])
    split
    · exact .of_wf hwf (by simp [decodeDone_eq])
    · next hp =>
      have hlen := prefixLen_pos p
      have htail : (s.consume 1).src.rest = tail := by rw [consume_rest, hr, List.drop_one, List.tail_cons]
      rcases withSrcAnswer_cases (decAskRest p ((s.consume 1).emit (.srcOk (srcLanes [p] u))))
        (decReplyRest tail) with ⟨l, e⟩ | ⟨r, l, e⟩ <;> rw [e]
      · refine ⟨hwf, fun _ => ⟨?_, Nat.le_add_left 1 _, content_pos_of_rest hr⟩⟩
        simp only [State.setSrcAnswers_decPrefix, decAskRest_eq]
        omega
      · rw [← htail]
        exact decSound_decReplyRest r (s := (decAskRest p _).setSrcAnswers l) hwf
  · exact .of_wf (loseBytes_wf _ h) (by simp [raiseIoFailure_x2])

theorem decSound_decode {s t : State} (h : execDecode s = .next t) (hs : s.src.wf = true) : DecSound t := by
  obtain ⟨-, rfl⟩ := decodeFrom_next h
  rcases withSrcAnswer_cases (decRequest s) (decReplyPrefix s.src.rest) with ⟨l, e⟩ | ⟨r, l, e⟩ <;> rw [e]
  · exact .of_wf hs (by simp [decRequest_eq])
  · exact decSound_decReplyPrefix r (s := (decRequest s).setSrcAnswers l) hs

/-- `ENCODE` waits for its write only where the sink is clean (R166). -/
theorem encode_writes_to_clean {v : Value} {s t : State} (h : execEncode v s = .next t)
    (hw : t.encState = .write) : t.snk.isPoisoned = false := by
  obtain ⟨hi, content, hc, ⟨l, rfl⟩ | ⟨l, rfl⟩ | ⟨e, l, rfl⟩⟩ := execEncode_cases h
  · simp only [hc, Sink.isPoisoned]
  · rfl
  · simp only [hi] at hw
    cases hw

/-- Taking an event keeps the invariant: ENC's part by its phases, DEC's by the bytes that are there. -/
theorem Taken.inv {s t : State} (hs : Inv s) (h : Taken s t) : Inv t := by
  cases h with
  | sizeOf v => exact hs.of_encMove (encMove_setBwcValue s v) hs.writeToCleanSink
  | encode h => exact hs.of_encMove (encMove_encode h) (encode_writes_to_clean h)
  | decode h => exact hs.of_decMove (decMove_decode h) (decSound_decode h hs.wf)
  | sinkReply r h =>
    exact hs.of_encMove (encMove_encReply r s) fun hw => by simp at hw
  | prefixReply r h => exact hs.of_decMove (decMove_decReplyPrefix _ r s) (decSound_decReplyPrefix r hs.wf)
  | restReply r h => exact hs.of_decMove (decMove_decReplyRest _ r s) (decSound_decReplyRest r hs.wf)
  | rst =>
    have henc : Inv (resetEnc (s.emit .rst)) :=
      hs.of_encMove (encMove_rst s) fun hw => by simp at hw
    exact henc.of_decMove (decMove_resetDec _) (.of_wf (resetDec_wf henc.wf) (by simp [resetEvent]))

/-- Settles O55: taking an event off the list keeps the invariant, and so does every move of a unit. -/
theorem everyStepKeepsTheInvariant : Obligations.EveryStepKeepsTheInvariant := by
  intro s t hs h
  rcases step_taken h with rfl | ⟨l, h⟩
  · exact hs
  · exact h.inv (hs.of_encMove (encMove_setInputs s l) hs.writeToCleanSink)

/-- Settles O54: at reset the position is 0, ENC and DEC are idle, the sink is clean and nothing is logged. -/
theorem invariantHoldsAtReset : Obligations.InvariantHoldsAtReset where
  posInContent := Nat.le_refl 0
  writeToCleanSink h := by cases h
  restIsLonger h := by cases h
  prefixIsConsumed h := by cases h
  poisonRecorded h := by cases h
  failuresRecorded := rfl

/-- Settles O46, field by field of `State.reset`. -/
theorem resetLeavesTheUnitsIdle : Obligations.ResetLeavesTheUnitsIdle :=
  ⟨⟨rfl, rfl⟩, rfl, rfl, rfl, rfl⟩

/-! ### SIZE_OF -/

theorem bwcLen_toNat (s : State) : s.bwcLen.toNat = numBytes s.bwcValue := by
  have := numBytes_le s.bwcValue
  rw [State.bwcLen, BitVec.toNat_ofNat, Nat.mod_eq_of_lt (by omega)]

/-- Settles O14: `bwc_len` has room for every byte count; the corner cases are computed. -/
theorem sizeOfShowsTheByteCount : Obligations.SizeOfShowsTheByteCount := by
  refine ⟨fun v s => ⟨_, rfl, rfl, bwcLen_toNat _⟩, fun s => ?_, by decide⟩
  rw [bwcLen_toNat]
  exact ⟨rfl, numBytes_pos _, numBytes_le _⟩

/-! ### Frames -/

theorem snkLen_toNat (v : Value) : (snkLen v).toNat = numBytes v := by
  have := numBytes_le v
  rw [snkLen, BitVec.toNat_ofNat, Nat.mod_eq_of_lt (by omega)]

/-- An append changes no byte in front of the places appended and none behind them (R35). -/
theorem append_byteAt_outside (content bs : List Byte) {k : Nat}
    (h : k < content.length ∨ content.length + bs.length ≤ k) :
    (Sink.clean (content ++ bs)).byteAt k = (Sink.clean content).byteAt k := by
  rcases h with h | h
  · exact append_byteAt_old content bs h
  · simp only [Sink.byteAt]
    rw [List.getElem?_eq_none (by simpa using h), List.getElem?_eq_none (by omega)]

/-- What `ENCODE` may change: ENC's phase, its latch, the sink and its answers, record and port events. -/
theorem encode_keeps {v : Value} {s t : State} (h : execEncode v s = .next t) :
    t.bwcValue = s.bwcValue ∧ t.inputs = s.inputs ∧ t.srcAnswers = s.srcAnswers ∧ t.draws = s.draws ∧
      t.encV = v := by
  obtain ⟨-, -, -, ⟨l, rfl⟩ | ⟨l, rfl⟩ | ⟨e, l, rfl⟩⟩ := execEncode_cases h <;> exact ⟨rfl, rfl, rfl, rfl, rfl⟩

/-- In a sink that stays clean, `ENCODE` changes nothing outside the places of its Encoding (R35, R83). -/
theorem encode_byteAt {v : Value} {s t : State} (h : execEncode v s = .next t) {content : List Byte} {k : Nat}
    (hc : s.snk = .clean content) (ht : t.snk.isPoisoned = false)
    (hk : k < content.length ∨ content.length + numBytes v ≤ k) : t.snk.byteAt k = s.snk.byteAt k := by
  obtain ⟨-, content', hc', ⟨l, rfl⟩ | ⟨l, rfl⟩ | ⟨e, l, rfl⟩⟩ := execEncode_cases h
  · rfl
  · obtain rfl : content' = content := by rw [hc] at hc'; cases hc'; rfl
    rw [hc]
    exact append_byteAt_outside content' (encBytes v) (by rwa [encBytes, length_bytesLE])
  · cases ht

/-- Of the requests to streams, `ENCODE` issues one write request, for all bytes of its Encoding (R84). -/
theorem encode_requests {v : Value} {s t : State} (h : execEncode v s = .next t) :
    (newEvents s t).filterMap PortEvent.writeCount = [numBytes v] ∧
      (newEvents s t).filterMap PortEvent.readCount = [] := by
  obtain ⟨-, -, -, ⟨l, rfl⟩ | ⟨l, rfl⟩ | ⟨e, l, rfl⟩⟩ := execEncode_cases h <;>
    rw [newEvents, drop_trace rfl] <;>
    exact ⟨congrArg (fun n => [n]) (snkLen_toNat v), rfl⟩

/-- Settles O31, from the cases of `ENCODE`: it waits, appends, or poisons. -/
theorem encodeFrame : Obligations.EncodeFrame := by
  intro v s t h
  have m := encMove_encode h
  obtain ⟨hb, hi, ha, hd, hv⟩ := encode_keeps h
  exact ⟨m.decState, m.decPrefix, hb, m.src, hi, ha, hd, hv, fun _ _ => encode_byteAt h, m.log.trace_prefix,
    m.log.record_prefix, encode_requests h⟩

/-- What a decode may change: DEC's phase, its latch, the source's position and answers, record, port events and
the counter of free values. -/
theorem decode_keeps {next : List Byte} {s t : State} (h : decodeFrom next s = .next t) :
    t.encV = s.encV ∧ t.bwcValue = s.bwcValue ∧ t.inputs = s.inputs ∧ t.snkAnswers = s.snkAnswers := by
  obtain ⟨-, h⟩ := decodeFrom_cases h
  rcases h with ⟨l, rfl⟩ | ⟨e, l, rfl⟩ | ⟨p, tail, u, l, -, -, rfl⟩ | ⟨p, tail, u, l, -, -, rfl⟩ |
    ⟨p, tail, u, u2, l, -, -, -, rfl⟩ | ⟨p, tail, u, e, l, -, -, rfl⟩ <;>
  exact ⟨rfl, rfl, rfl, rfl⟩

/-- A decode consumes at most the bytes of the longest Encoding (R98). -/
theorem decode_pos_le {next : List Byte} {s t : State} (h : decodeFrom next s = .next t) :
    t.src.pos ≤ s.src.pos + 9 := by
  obtain ⟨-, h⟩ := decodeFrom_cases h
  rcases h with ⟨l, rfl⟩ | ⟨e, l, rfl⟩ | ⟨p, tail, u, l, -, -, rfl⟩ | ⟨p, tail, u, l, -, -, rfl⟩ |
    ⟨p, tail, u, u2, l, -, -, -, rfl⟩ | ⟨p, tail, u, e, l, -, -, rfl⟩
  · exact Nat.le_add_right _ _
  · have := failedConsumption_le s 1 next.length
    simp only
    omega
  · simp
  · simp
  · have := prefixLen_le p
    simp only
    omega
  · have := prefixLen_le p
    have := failedConsumption_le s (prefixLen p - 1) tail.length
    simp only
    omega

theorem decode_writeCount {next : List Byte} {s t : State} (h : decodeFrom next s = .next t) :
    (newEvents s t).filterMap PortEvent.writeCount = [] := by
  obtain ⟨-, h⟩ := decodeFrom_cases h
  rcases h with ⟨l, rfl⟩ | ⟨e, l, rfl⟩ | ⟨p, tail, u, l, -, -, rfl⟩ | ⟨p, tail, u, l, -, -, rfl⟩ |
    ⟨p, tail, u, u2, l, -, -, -, rfl⟩ | ⟨p, tail, u, e, l, -, -, rfl⟩ <;>
  (rw [newEvents, drop_trace rfl]; rfl)

/-- Settles O40: `DECODE` and the WIRE forms are decodes of some bytes, and a decode moves DEC alone. -/
theorem decodeFrame : Obligations.DecodeFrame := by
  intro i s t hi h
  obtain ⟨next, h⟩ : ∃ next, decodeFrom next s = .next t := by
    rcases hi with rfl | ⟨n, payload, hw⟩
    · exact ⟨_, h⟩
    · rw [exec_wire hw] at h
      exact ⟨_, h⟩
  have m := decMove_decode h
  obtain ⟨hv, hb, hin, ha⟩ := decode_keeps h
  exact ⟨m.encState, hv, hb, m.snk, hin, ha, fun k => by rw [Source.byteAt, m.content, Source.byteAt], m.content,
    m.pos, decode_pos_le h, m.log.trace_prefix, m.log.record_prefix, decode_writeCount h⟩

/-! ### Reset -/

/-- What an abandoned read loses, by the phase that `rst` finds: nothing, or at most what was asked for and there
(R161). -/
theorem abandonedRead_le (s : State) :
    let lost := s.failedConsumption s.bytesAsked s.src.rest.length
    (s.decState = .idle → lost = 0) ∧
      (s.decState = .rdPrefix → lost ≤ min 1 s.src.rest.length) ∧
      (s.decState = .rdRest → lost ≤ min (prefixLen s.decPrefix - 1) s.src.rest.length) := by
  have hc := failedConsumption_le s s.bytesAsked s.src.rest.length
  refine ⟨fun hd => ?_, fun hd => ?_, fun hd => ?_⟩ <;> simp only [State.bytesAsked, hd] at hc ⊢
  · omega
  · exact hc
  · exact hc

/-- Settles O47: ENC's reset by its phase; of the bytes DEC has asked for, some are lost. -/
theorem rstAbandonsWithoutCompletion : Obligations.RstAbandonsWithoutCompletion := by
  intro s l hin
  have hlost := abandonedRead_le s
  refine ⟨_, s.failedConsumption s.bytesAsked s.src.rest.length, step_of_rst hin, ?_⟩
  cases he : s.encState with
  | idle =>
    rw [resetEvent, resetDec_eq, resetEnc_of_idle (s := (s.setInputs l).emit .rst) he]
    exact ⟨⟨rfl, rfl⟩, rfl, rfl, rfl, rfl, rfl, rfl, rfl, fun _ => ⟨rfl, rfl⟩, nofun, rfl, hlost⟩
  | write =>
    rw [resetEvent, resetDec_eq, resetEnc_of_write (s := (s.setInputs l).emit .rst) he]
    exact ⟨⟨rfl, rfl⟩, rfl, rfl, rfl, rfl, rfl, rfl, rfl, nofun, fun _ => ⟨rfl, rfl⟩, rfl, hlost⟩

end Sys2Proof.Machine
end

section
/-! What an operation reads: states that look alike to a unit have next states that look alike to it.  Unused latches and
the other unit's side make no difference. -/

namespace Sys2Proof.Machine

/-! ### States that look alike to a unit -/

/-- Whether a read succeeds, and with which data or error, does not depend on the state (R34, R36). -/
theorem memRead_uniform (n : Nat) (next : List Byte) (r : SourceReply) :
    (∃ d, ∀ s, memRead n next r s = .ok d ((s.consume n).emit (.srcOk d))) ∨
    (∃ e, ∀ s, memRead n next r s = .failed e ((s.loseBytes n next.length).emit (.srcErr e))) := by
  cases r with
  | yield upper =>
    rcases Nat.lt_or_ge next.length n with h | h
    · exact .inr ⟨_, fun s => memRead_short upper s h⟩
    · exact .inl ⟨_, fun s => memRead_yield upper s h⟩
  | err e => exact .inr ⟨e, fun s => memRead_err e s⟩

theorem setSrcAnswers_self {s : State} {l : List (Option SourceReply)} (h : s.srcAnswers = l) :
    s.setSrcAnswers l = s := by subst h; rfl

theorem setSnkAnswers_self {s : State} {l : List (Option SinkReply)} (h : s.snkAnswers = l) :
    s.setSnkAnswers l = s := by subst h; rfl

/-- A relation between states that look alike to DEC, kept by each elementary operation of DEC. -/
structure DecCongruence (R : State → State → Prop) : Prop where
  phase {s s' : State} : R s s' → s'.decState = s.decState
  latch {s s' : State} : R s s' → s.decState = .rdRest → s'.decPrefix = s.decPrefix
  source {s s' : State} : R s s' → s'.src = s.src
  answers {s s' : State} : R s s' → s'.srcAnswers = s.srcAnswers
  setSrcAnswers {s s' : State} (l : List (Option SourceReply)) :
    R s s' → R (s.setSrcAnswers l) (s'.setSrcAnswers l)
  request {s s' : State} : R s s' → R (decRequest s) (decRequest s')
  yielded {s s' : State} (n : Nat) (d : BitVec 64) :
    R s s' → R ((s.consume n).emit (.srcOk d)) ((s'.consume n).emit (.srcOk d))
  lost {s s' : State} (n avail : Nat) (e : IoErr) :
    R s s' → R ((s.loseBytes n avail).emit (.srcErr e)) ((s'.loseBytes n avail).emit (.srcErr e))
  askRest {s s' : State} (p : Byte) : R s s' → R (decAskRest p s) (decAskRest p s')
  completed {s s' : State} (v : Value) : R s s' → R (s.decodeDone v) (s'.decodeDone v)
  failedX2 {s s' : State} (e : IoErr) : R s s' → R (s.raiseIoFailure .x2 e) (s'.raiseIoFailure .x2 e)
  failedX3 {s s' : State} (e : IoErr) : R s s' → R (s.raiseIoFailure .x3 e) (s'.raiseIoFailure .x3 e)

namespace DecCongruence

variable {R : State → State → Prop} (c : DecCongruence R) {s s' : State}
include c

theorem withSrcAnswer_congr {k : SourceReply → State → State} (h : R s s')
    (hk : ∀ r l, R (k r (s.setSrcAnswers l)) (k r (s'.setSrcAnswers l))) :
    R (s.withSrcAnswer k) (s'.withSrcAnswer k) := by
  have ha' := c.answers h
  rcases ha : s.srcAnswers with _ | ⟨_ | r, l⟩ <;> rw [ha] at ha'
  · rw [withSrcAnswer_nil k ha, withSrcAnswer_nil k ha']
    simpa only [setSrcAnswers_self ha, setSrcAnswers_self ha'] using hk (.yield 0) []
  · rw [withSrcAnswer_none k ha, withSrcAnswer_none k ha']
    exact c.setSrcAnswers l h
  · rw [withSrcAnswer_some k ha, withSrcAnswer_some k ha']
    exact hk r l

theorem decReplyRest_congr (next : List Byte) (r : SourceReply) (h : R s s') (hd : s.decState = .rdRest) :
    R (decReplyRest next r s) (decReplyRest next r s') := by
  have hp := c.latch h hd
  rcases memRead_uniform (prefixLen s.decPrefix - 1) next r with ⟨d, hr⟩ | ⟨e, hr⟩ <;>
    rw [decReplyRest, decReplyRest, hp, hr, hr]
  · exact c.completed _ (c.yielded _ d h)
  · exact c.failedX3 e (c.lost _ _ e h)

theorem decReplyPrefix_congr (next : List Byte) (r : SourceReply) (h : R s s') :
    R (decReplyPrefix next r s) (decReplyPrefix next r s') := by
  rcases memRead_uniform 1 next r with ⟨d, hr⟩ | ⟨e, hr⟩ <;> rw [decReplyPrefix, decReplyPrefix, hr, hr]
  · have hy := c.yielded 1 d h
    dsimp only
    split
    · exact c.completed _ hy
    · have hask := c.askRest (srcLane d 0) hy
      exact c.withSrcAnswer_congr hask fun r l => c.decReplyRest_congr _ r (c.setSrcAnswers l hask) rfl
  · exact c.failedX2 e (c.lost _ _ e h)

/-- Where a decode has a next state, it has one in a state that looks alike to DEC, and the two are related. -/
theorem execDecode_congr {t : State} (h : R s s') (hs : execDecode s = .next t) :
    ∃ t', execDecode s' = .next t' ∧ R t t' := by
  obtain ⟨hi, rfl⟩ := decodeFrom_next hs
  have hreq := c.request h
  refine ⟨_, decodeFrom_eq ((c.phase h).trans hi), ?_⟩
  rw [c.source h]
  exact c.withSrcAnswer_congr hreq fun r l => c.decReplyPrefix_congr _ r (c.setSrcAnswers l hreq)

end DecCongruence

/-- A relation between states that look alike to ENC, kept by each elementary operation of ENC. -/
structure EncCongruence (R : State → State → Prop) : Prop where
  phase {s s' : State} : R s s' → s'.encState = s.encState
  sink {s s' : State} : R s s' → s'.snk = s.snk
  answers {s s' : State} : R s s' → s'.snkAnswers = s.snkAnswers
  setSnkAnswers {s s' : State} (l : List (Option SinkReply)) :
    R s s' → R (s.setSnkAnswers l) (s'.setSnkAnswers l)
  request {s s' : State} (v : Value) : R s s' → R (encRequest v s) (encRequest v s')
  reply {s s' : State} (r : SinkReply) : R s s' → s.encState = .write → R (encReply r s) (encReply r s')

/-- Where `ENCODE` has a next state, it has one in a state that looks alike to ENC, and the two are related. -/
theorem EncCongruence.execEncode_congr {R : State → State → Prop} (c : EncCongruence R) {s s' t : State}
    {v : Value} (h : R s s') (hs : execEncode v s = .next t) :
    ∃ t', execEncode v s' = .next t' ∧ R t t' := by
  obtain ⟨hi, ⟨content, hc⟩, rfl⟩ := execEncode_next hs
  have hreq := c.request v h
  have ha' := c.answers hreq
  have hk : ∀ r l, R (encReply r ((encRequest v s).setSnkAnswers l))
      (encReply r ((encRequest v s').setSnkAnswers l)) :=
    fun r l => c.reply r (c.setSnkAnswers l hreq) rfl
  refine ⟨_, execEncode_eq ((c.phase h).trans hi) ((c.sink h).trans hc), ?_⟩
  rcases ha : (encRequest v s).snkAnswers with _ | ⟨_ | r, l⟩ <;> rw [ha] at ha'
  · rw [withSnkAnswer_nil encReply ha, withSnkAnswer_nil encReply ha']
    simpa only [setSnkAnswers_self ha, setSnkAnswers_self ha'] using hk .ok []
  · rw [withSnkAnswer_none encReply ha, withSnkAnswer_none encReply ha']
    exact c.setSnkAnswers l hreq
  · rw [withSnkAnswer_some encReply ha, withSnkAnswer_some encReply ha']
    exact hk r l

/-! ### Latches that are not in use -/

/-- `s'` is `s` but for `enc_v` unless ENC is in `WRITE`, and for `dec_prefix` unless DEC is in `RD_REST`. -/
def SameInUse (s s' : State) : Prop :=
  ∃ a b, s' = { s with encV := a, decPrefix := b } ∧ (s.encState = .write → a = s.encV) ∧
    (s.decState = .rdRest → b = s.decPrefix)

theorem SameInUse.setInputs {s s' : State} (h : SameInUse s s') (l : List Input) :
    SameInUse (s.setInputs l) (s'.setInputs l) := by
  obtain ⟨a, b, rfl, he, hd⟩ := h
  exact ⟨a, b, rfl, he, hd⟩

theorem sameInUse_decCongruence : DecCongruence SameInUse where
  phase := by rintro s _ ⟨a, b, rfl, -, -⟩; rfl
  latch := by rintro s _ ⟨a, b, rfl, -, hd⟩ hr; exact hd hr
  source := by rintro s _ ⟨a, b, rfl, -, -⟩; rfl
  answers := by rintro s _ ⟨a, b, rfl, -, -⟩; rfl
  setSrcAnswers l := by rintro ⟨a, b, rfl, he, hd⟩; exact ⟨a, b, rfl, he, hd⟩
  request := by rintro s _ ⟨a, b, rfl, he, -⟩; exact ⟨a, b, rfl, he, nofun⟩
  yielded n d := by rintro ⟨a, b, rfl, he, hd⟩; exact ⟨a, b, rfl, he, hd⟩
  lost n avail e := by rintro ⟨a, b, rfl, he, hd⟩; exact ⟨a, b, rfl, he, hd⟩
  askRest p := by rintro ⟨a, b, rfl, he, -⟩; exact ⟨a, p, rfl, he, fun _ => rfl⟩
  completed v := by rintro ⟨a, b, rfl, he, -⟩; exact ⟨a, b, rfl, he, nofun⟩
  failedX2 e := by rintro ⟨a, b, rfl, he, -⟩; exact ⟨a, b, rfl, he, nofun⟩
  failedX3 e := by rintro ⟨a, b, rfl, he, -⟩; exact ⟨a, b, rfl, he, nofun⟩

theorem sameInUse_encCongruence : EncCongruence SameInUse where
  phase := by rintro s _ ⟨a, b, rfl, -, -⟩; rfl
  sink := by rintro s _ ⟨a, b, rfl, -, -⟩; rfl
  answers := by rintro s _ ⟨a, b, rfl, -, -⟩; rfl
  setSnkAnswers l := by rintro ⟨a, b, rfl, he, hd⟩; exact ⟨a, b, rfl, he, hd⟩
  request v := by rintro ⟨a, b, rfl, -, hd⟩; exact ⟨v, b, rfl, fun _ => rfl, hd⟩
  reply r := by
    rintro ⟨a, b, rfl, he, hd⟩ hw
    obtain rfl := he hw
    cases r with
    | ok => exact ⟨_, b, rfl, nofun, hd⟩
    | err e => exact ⟨_, b, rfl, nofun, hd⟩

theorem SameInUse.resetEnc_congr {s s' : State} (h : SameInUse s s') : SameInUse (resetEnc s) (resetEnc s') := by
  have hphase := sameInUse_encCongruence.phase h
  cases he : s.encState <;> rw [he] at hphase
  · rw [resetEnc_of_idle he, resetEnc_of_idle hphase]
    obtain ⟨a, b, rfl, -, hd⟩ := h
    exact ⟨_, b, rfl, nofun, hd⟩
  · rw [resetEnc_of_write he, resetEnc_of_write hphase]
    obtain ⟨a, b, rfl, -, hd⟩ := h
    exact ⟨_, b, rfl, nofun, hd⟩

theorem SameInUse.bytesAsked {s s' : State} (h : SameInUse s s') : s'.bytesAsked = s.bytesAsked := by
  obtain ⟨a, b, rfl, -, hd⟩ := h
  cases hp : s.decState <;> simp only [State.bytesAsked, hp]
  rw [hd hp]

theorem SameInUse.resetDec_congr {s s' : State} (h : SameInUse s s') : SameInUse (resetDec s) (resetDec s') := by
  have hn := h.bytesAsked
  obtain ⟨a, b, rfl, he, -⟩ := h
  rw [resetDec_eq, resetDec_eq, hn]
  exact ⟨a, _, rfl, he, nofun⟩

theorem SameInUse.resetEvent_congr {s s' : State} (h : SameInUse s s') : SameInUse (resetEvent s) (resetEvent s') := by
  have hrst : SameInUse (s.emit .rst) (s'.emit .rst) := by
    obtain ⟨a, b, rfl, he, hd⟩ := h
    exact ⟨a, b, rfl, he, hd⟩
  exact hrst.resetEnc_congr.resetDec_congr

/-- A latch that is not in use is not read, whatever the phases and the event (R13). -/
theorem SameInUse.step_congr {s s' t : State} (h : SameInUse s s') (hs : step s = .next t) :
    ∃ t', step s' = .next t' ∧ SameInUse t t' := by
  have hin : s'.inputs = s.inputs := by obtain ⟨a, b, rfl, -, -⟩ := h; rfl
  rcases step_cases hs with ⟨h0, rfl⟩ | ⟨l, ⟨r, hr, -⟩ | ⟨r, hr, hw, rfl⟩ | ⟨r, hr, hp, rfl⟩ | ⟨r, hr, hp, rfl⟩ |
    ⟨hr, rfl⟩⟩
  · exact ⟨s', step_of_no_input (hin.trans h0), h⟩
  all_goals
    rw [hr] at hin
    have hl := h.setInputs l
  · rw [step_of_request hr] at hs
    rw [step_of_request hin]
    cases r with
    | bwcValue v =>
      cases hs
      obtain ⟨a, b, e, he, hd⟩ := hl
      exact ⟨_, rfl, a, b, by rw [e]; rfl, he, hd⟩
    | encReq v => exact sameInUse_encCongruence.execEncode_congr hl hs
    | decReq => exact sameInUse_decCongruence.execDecode_congr hl hs
  · exact ⟨_, step_of_sinkReply hin ((sameInUse_encCongruence.phase h).trans hw),
      sameInUse_encCongruence.reply r hl hw⟩
  · rw [step_of_prefixReply hin ((sameInUse_decCongruence.phase h).trans hp),
      sameInUse_decCongruence.source h]
    exact ⟨_, rfl, sameInUse_decCongruence.decReplyPrefix_congr _ r hl⟩
  · rw [step_of_restReply hin ((sameInUse_decCongruence.phase h).trans hp),
      sameInUse_decCongruence.source h]
    exact ⟨_, rfl, sameInUse_decCongruence.decReplyRest_congr _ r hl hp⟩
  · exact ⟨_, step_of_rst hin, hl.resetEvent_congr⟩

/-- Settles O57: states that differ in latches not in use take the same steps. -/
theorem idleLatchesAreNotRead : Obligations.IdleLatchesAreNotRead := by
  rintro s t a b ⟨hi, hd⟩ hs
  have h : SameInUse s { s with encV := a, decPrefix := b } :=
    ⟨a, b, rfl, fun hw => (nomatch hi.symm.trans hw), fun hr => (nomatch hd.symm.trans hr)⟩
  obtain ⟨t', ht', a', b', rfl, hw, hr⟩ := h.step_congr hs
  exact ⟨_, ht', rfl, hw, hr⟩

/-! ### The two units side by side -/

/-- DEC, its source and its deliveries are the same. -/
structure SameDec (s s' : State) : Prop where
  decState : s'.decState = s.decState
  decPrefix : s'.decPrefix = s.decPrefix
  src : s'.src = s.src
  srcAnswers : s'.srcAnswers = s.srcAnswers
  draws : s'.draws = s.draws
  outcomes : s'.trace.filterMap PortEvent.decOutcome = s.trace.filterMap PortEvent.decOutcome

/-- ENC, its sink and its deliveries are the same. -/
structure SameEnc (s s' : State) : Prop where
  encState : s'.encState = s.encState
  encV : s'.encV = s.encV
  snk : s'.snk = s.snk
  snkAnswers : s'.snkAnswers = s.snkAnswers
  outcomes : s'.trace.filterMap PortEvent.encOutcome = s.trace.filterMap PortEvent.encOutcome

theorem SameDec.emit {s s' : State} (h : SameDec s s') (e : PortEvent) : SameDec (s.emit e) (s'.emit e) :=
  ⟨h.decState, h.decPrefix, h.src, h.srcAnswers, h.draws,
    by simp only [State.emit_trace, List.filterMap_append, h.outcomes]⟩

theorem SameDec.setDecState {s s' : State} (h : SameDec s s') (p : DecState) :
    SameDec (s.setDecState p) (s'.setDecState p) :=
  ⟨rfl, h.decPrefix, h.src, h.srcAnswers, h.draws, h.outcomes⟩

theorem SameDec.setDecPrefix {s s' : State} (h : SameDec s s') (p : Byte) :
    SameDec (s.setDecPrefix p) (s'.setDecPrefix p) :=
  ⟨h.decState, rfl, h.src, h.srcAnswers, h.draws, h.outcomes⟩

theorem SameDec.consume {s s' : State} (h : SameDec s s') (n : Nat) : SameDec (s.consume n) (s'.consume n) :=
  ⟨h.decState, h.decPrefix, by rw [State.consume_src, State.consume_src, h.src], h.srcAnswers, h.draws,
    h.outcomes⟩

theorem SameDec.loseBytes {s s' : State} (h : SameDec s s') (n avail : Nat) :
    SameDec (s.loseBytes n avail) (s'.loseBytes n avail) := by
  have hc : s'.failedConsumption n avail = s.failedConsumption n avail := by
    rw [State.failedConsumption, State.failedConsumption, h.draws]
  rw [loseBytes_eq, loseBytes_eq, hc, h.src, h.draws]
  exact ⟨h.decState, h.decPrefix, rfl, h.srcAnswers, rfl, h.outcomes⟩

theorem SameDec.note {s s' : State} (h : SameDec s s') (f : FaultEntry) : SameDec (s.note f) (s'.note f) :=
  ⟨h.decState, h.decPrefix, h.src, h.srcAnswers, h.draws, h.outcomes⟩

theorem sameDec_decCongruence : DecCongruence SameDec where
  phase h := h.decState
  latch h _ := h.decPrefix
  source h := h.src
  answers h := h.srcAnswers
  setSrcAnswers _ h := ⟨h.decState, h.decPrefix, h.src, rfl, h.draws, h.outcomes⟩
  request h := ((h.emit _).setDecState _).emit _
  yielded n _ h := (h.consume n).emit _
  lost n avail _ h := (h.loseBytes n avail).emit _
  askRest p h := ((h.setDecPrefix p).setDecState _).emit _
  completed _ h := (h.setDecState _).emit _
  failedX2 _ h := ((h.setDecState _).note _).emit _
  failedX3 _ h := ((h.setDecState _).note _).emit _

theorem sameEnc_encCongruence : EncCongruence SameEnc where
  phase h := h.encState
  sink h := h.snk
  answers h := h.snkAnswers
  setSnkAnswers _ h := ⟨h.encState, h.encV, h.snk, rfl, h.outcomes⟩
  request v h := by
    rw [encRequest_eq, encRequest_eq]
    exact ⟨rfl, rfl, h.snk, h.snkAnswers, by simp only [List.filterMap_append, h.outcomes]⟩
  reply r h _ := by
    cases r with
    | ok =>
      rw [encReply_ok, encReply_ok, h.encV, h.snk]
      exact ⟨rfl, rfl, rfl, h.snkAnswers, by simp only [List.filterMap_append, h.outcomes]⟩
    | err e =>
      rw [encReply_err, encReply_err]
      exact ⟨rfl, h.encV, rfl, h.snkAnswers, by simp only [List.filterMap_append, h.outcomes]⟩

/-- `ENCODE` leaves DEC's side alone and delivers nothing for it (R11). -/
theorem encode_sameDec {v : Value} {s t : State} (h : execEncode v s = .next t) : SameDec s t := by
  obtain ⟨-, -, -, ⟨l, rfl⟩ | ⟨l, rfl⟩ | ⟨e, l, rfl⟩⟩ := execEncode_cases h <;>
  exact ⟨rfl, rfl, rfl, rfl, rfl, by simp [PortEvent.decOutcome, List.filterMap_cons]⟩

/-- A decode leaves ENC's side alone and delivers nothing for it (R11). -/
theorem decode_sameEnc {next : List Byte} {s t : State} (h : decodeFrom next s = .next t) : SameEnc s t := by
  obtain ⟨-, h⟩ := decodeFrom_cases h
  rcases h with ⟨l, rfl⟩ | ⟨e, l, rfl⟩ | ⟨p, tail, u, l, -, -, rfl⟩ | ⟨p, tail, u, l, -, -, rfl⟩ |
    ⟨p, tail, u, u2, l, -, -, -, rfl⟩ | ⟨p, tail, u, e, l, -, -, rfl⟩ <;>
  exact ⟨rfl, rfl, rfl, rfl, by simp [PortEvent.encOutcome, List.filterMap_cons]⟩

/-- Settles O58: an operation of one unit leaves the other unit's side of the state alone, and reads nothing but
its own side. -/
theorem encAndDecAreIndependent : Obligations.EncAndDecAreIndependent := by
  intro v s s1 s2 h1 h2
  obtain ⟨t, ht, dec⟩ := sameDec_decCongruence.execDecode_congr (encode_sameDec h1) h2
  obtain ⟨t', ht', enc⟩ := sameEnc_encCongruence.execEncode_congr (decode_sameEnc h2) h1
  have enc' := decode_sameEnc ht
  have dec' := encode_sameDec ht'
  obtain ⟨hb1, hi1, -⟩ := encode_keeps h1
  obtain ⟨hb1', hi1', -⟩ := encode_keeps ht'
  obtain ⟨-, hb2, hi2, -⟩ := decode_keeps h2
  obtain ⟨-, hb2', hi2', -⟩ := decode_keeps ht
  refine ⟨t, t', ht, ht', ?_, enc'.outcomes.trans enc.outcomes.symm, dec.outcomes.trans dec'.outcomes.symm⟩
  simp only [State.mk.injEq]
  exact ⟨enc'.encState.trans enc.encState.symm, enc'.encV.trans enc.encV.symm,
    dec.decState.trans dec'.decState.symm, dec.decPrefix.trans dec'.decPrefix.symm,
    by rw [hb2', hb1, hb1', hb2], enc'.snk.trans enc.snk.symm, dec.src.trans dec'.src.symm, trivial, trivial,
    by rw [hi2', hi1, hi1', hi2], enc'.snkAnswers.trans enc.snkAnswers.symm,
    dec.srcAnswers.trans dec'.srcAnswers.symm, dec.draws.trans dec'.draws.symm⟩

end Sys2Proof.Machine
end

section
/-! What the source drives on the lanes that were not asked for makes no difference (R20, U8). -/

namespace Sys2Proof.Machine

/-- The reply value is formed from the lanes asked for alone (R99, R103, U8). -/
theorem restValue_srcLanes (p : Byte) (bs : List Byte) (u w : BitVec 64) (h : bs.length = prefixLen p - 1) :
    restValue p (srcLanes bs u) = restValue p (srcLanes bs w) := by
  have h8 : bs.length ≤ 8 := by have := prefixLen_le p; omega
  simp only [restValue, ← h, srcLanes_toNat_mod bs _ h8]

/-- `s'` is `s` but for the port events and the source's answers; the outcomes delivered are the same, and so is
the number of answers. -/
def SameButLanes (s s' : State) : Prop :=
  ∃ tr l, s' = { s with trace := tr, srcAnswers := l } ∧ l.length = s.srcAnswers.length ∧
    tr.filterMap PortEvent.decOutcome = s.trace.filterMap PortEvent.decOutcome

namespace SameButLanes

variable {s s' : State} (h : SameButLanes s s')
include h

theorem emit {e e' : PortEvent} (he : e'.decOutcome = e.decOutcome) : SameButLanes (s.emit e) (s'.emit e') := by
  obtain ⟨tr, l, rfl, hl, ho⟩ := h
  exact ⟨tr ++ [e'], l, rfl, hl,
    by simp only [State.emit_trace, List.filterMap_append, ho, List.filterMap_cons, he]⟩

theorem consume (n : Nat) : SameButLanes (s.consume n) (s'.consume n) := by
  obtain ⟨tr, l, rfl, hl, ho⟩ := h
  exact ⟨tr, l, rfl, hl, ho⟩

theorem yielded (n : Nat) (d d' : BitVec 64) :
    SameButLanes ((s.consume n).emit (.srcOk d)) ((s'.consume n).emit (.srcOk d')) :=
  (h.consume n).emit rfl

theorem loseBytes (n avail : Nat) : SameButLanes (s.loseBytes n avail) (s'.loseBytes n avail) := by
  obtain ⟨tr, l, rfl, hl, ho⟩ := h
  exact ⟨tr, l, rfl, hl, ho⟩

theorem setDecState (p : DecState) : SameButLanes (s.setDecState p) (s'.setDecState p) := by
  obtain ⟨tr, l, rfl, hl, ho⟩ := h
  exact ⟨tr, l, rfl, hl, ho⟩

theorem setDecPrefix (p : Byte) : SameButLanes (s.setDecPrefix p) (s'.setDecPrefix p) := by
  obtain ⟨tr, l, rfl, hl, ho⟩ := h
  exact ⟨tr, l, rfl, hl, ho⟩

theorem note (f : FaultEntry) : SameButLanes (s.note f) (s'.note f) := by
  obtain ⟨tr, l, rfl, hl, ho⟩ := h
  exact ⟨tr, l, rfl, hl, ho⟩

theorem setSrcAnswers {l l' : List (Option SourceReply)} (hl : l'.length = l.length) :
    SameButLanes (s.setSrcAnswers l) (s'.setSrcAnswers l') := by
  obtain ⟨tr, m, rfl, -, ho⟩ := h
  exact ⟨tr, l', rfl, hl, ho⟩

theorem decPrefix : s'.decPrefix = s.decPrefix := by
  obtain ⟨tr, l, rfl, -, -⟩ := h
  rfl

/-- In `RD_REST` the two deliver the same value (R103). -/
theorem decReplyRest_congr (next : List Byte) (u w : BitVec 64) :
    SameButLanes (decReplyRest next (.yield u) s) (decReplyRest next (.yield w) s') := by
  rcases Nat.lt_or_ge next.length (prefixLen s.decPrefix - 1) with hn | hn
  · rw [decReplyRest, decReplyRest, h.decPrefix, memRead_short u s hn, memRead_short w s' hn]
    exact ((((h.loseBytes _ _).emit rfl).setDecState .idle).note _).emit rfl
  · have hv := restValue_srcLanes s.decPrefix (next.take (prefixLen s.decPrefix - 1)) u w (by simpa using hn)
    rw [decReplyRest, decReplyRest, h.decPrefix, memRead_yield u s hn, memRead_yield w s' hn]
    dsimp only
    rw [hv]
    exact ((h.yielded _ _ _).setDecState .idle).emit rfl

/-- In `RD_PREFIX` the two differ on the lanes above the first only, so they latch the same byte (R103). -/
theorem decReplyPrefix_congr (next : List Byte) {u1 u2 w1 w2 : BitVec 64} {l : List (Option SourceReply)}
    (ha : s.srcAnswers = some (.yield u2) :: l) (ha' : s'.srcAnswers = some (.yield w2) :: l) :
    SameButLanes (decReplyPrefix next (.yield u1) s) (decReplyPrefix next (.yield w1) s') := by
  cases next with
  | nil =>
    rw [decReplyPrefix, decReplyPrefix, memRead_short u1 s (by simp),
      memRead_short w1 s' (by simp)]
    exact ((((h.loseBytes _ _).emit rfl).setDecState .idle).note _).emit rfl
  | cons p tail =>
    have hy := h.yielded 1 (srcLanes [p] u1) (srcLanes [p] w1)
    rw [decReplyPrefix_yield_cons, decReplyPrefix_yield_cons]
    split
    · exact (hy.setDecState .idle).emit rfl
    · rw [withSrcAnswer_some (s := decAskRest p ((s.consume 1).emit (.srcOk (srcLanes [p] u1)))) _ ha,
        withSrcAnswer_some (s := decAskRest p ((s'.consume 1).emit (.srcOk (srcLanes [p] w1)))) _ ha']
      have hask := ((hy.setDecPrefix p).setDecState .rdRest).emit
        (e := .srcReq (BitVec.ofNat 4 (prefixLen p - 1))) rfl
      exact (hask.setSrcAnswers rfl).decReplyRest_congr tail u2 w2

end SameButLanes

/-- A prompt answer takes the first read on to its reply step. -/
theorem execDecode_of_answer {s : State} {r : SourceReply} {l : List (Option SourceReply)}
    (hi : s.decState = .idle) (ha : s.srcAnswers = some r :: l) :
    execDecode s = .next (decReplyPrefix s.src.rest r ((decRequest s).setSrcAnswers l)) := by
  rw [execDecode, decodeFrom_eq hi, withSrcAnswer_some (s := decRequest s) _ ha]

/-- Settles O41: both decodes read the same bytes, and the value is formed from the lanes asked for. -/
theorem unusedLanesMakeNoDifference : Obligations.UnusedLanesMakeNoDifference := by
  intro s u1 u2 w1 w2 l hi
  refine ⟨_, _, execDecode_of_answer hi rfl, execDecode_of_answer hi rfl, ?_⟩
  have hreq : SameButLanes
      ((decRequest { s with srcAnswers := some (.yield u1) :: some (.yield u2) :: l }).setSrcAnswers
        (some (.yield u2) :: l))
      ((decRequest { s with srcAnswers := some (.yield w1) :: some (.yield w2) :: l }).setSrcAnswers
        (some (.yield w2) :: l)) := ⟨_, _, rfl, rfl, rfl⟩
  obtain ⟨tr, m, e, hl, ho⟩ := hreq.decReplyPrefix_congr s.src.rest (u1 := u1) (w1 := w1) rfl rfl
  rw [e]
  exact ⟨rfl, hl.symm, ho.symm⟩

end Sys2Proof.Machine
end

section
/-! A failing read of the source and a failing write to the sink (R34, R36, R136): what they leave behind. -/

namespace Sys2Proof.Machine

/-! ### MemRead -/

/-- Settles O24: a read yields its bytes whole or fails, and its lanes hold what was taken from the source. -/
theorem sourceReadIsAllOrNothing : Obligations.SourceReadIsAllOrNothing := by
  intro n r s _ h8
  rcases memRead_cases n s.src.rest r s with ⟨upper, hr, hn, h⟩ | ⟨e, he, h⟩ <;> rw [h]
  · have hlen : (s.src.rest.take n).length = n := List.length_take_of_le hn
    have hlanes := srcLanes_toNat_mod (s.src.rest.take n) upper (by omega)
    rw [hlen] at hlanes
    exact ⟨hn, ⟨upper, hr⟩, hlanes, rfl⟩
  · exact ⟨he, _, _, failedConsumption_le s n s.src.rest.length, rfl⟩

/-! ### X1 -/

/-- A prompt answer takes the write request on to its reply step (R86). -/
theorem execEncode_of_answer {v : Value} {s : State} {content : List Byte} {r : SinkReply}
    {l : List (Option SinkReply)} (hi : s.encState = .idle) (hc : s.snk = .clean content)
    (ha : s.snkAnswers = some r :: l) :
    execEncode v s = .next (encReply r ((encRequest v s).setSnkAnswers l)) := by
  rw [execEncode_eq hi hc, withSnkAnswer_some (s := encRequest v s) _ ha]

/-- Settles O26: the request step, then the reply step with the failure. -/
theorem encodeFailurePoisonsTheSink : Obligations.EncodeFailurePoisonsTheSink := by
  intro v s content e l hi hc ha
  refine (execEncode_of_answer hi hc ha).trans ?_
  simp [encReply_err, encRequest_eq, State.setSnkAnswers, hi]

/-! ### X2 -/

/-- The simple source answers the first read at once (R34). -/
theorem execDecode_of_simple {s : State} (hi : s.decState = .idle) (ha : s.srcAnswers = []) :
    execDecode s = .next (decReplyPrefix s.src.rest (.yield 0) (decRequest s)) := by
  rw [execDecode, decodeFrom_eq hi, withSrcAnswer_nil (s := decRequest s) _ ha]

/-- A failing answer at the first read is X2 (R103). -/
theorem decReplyPrefix_err (next : List Byte) (e : IoErr) (s : State) :
    decReplyPrefix next (.err e) s = ((s.loseBytes 1 next.length).emit (.srcErr e)).raiseIoFailure .x2 e := rfl

/-- At the end of the source the first read fails, whatever the source would drive (R34). -/
theorem decReplyPrefix_nil (upper : BitVec 64) (s : State) :
    decReplyPrefix [] (.yield upper) s = decReplyPrefix [] (.err Config.endOfInput) s := by
  rw [decReplyPrefix, decReplyPrefix, memRead_short upper s (by simp), memRead_err]

/-- What `DECODE` leaves behind when its first read fails (R36, R136). -/
theorem execDecode_of_prefix_err {s : State} {e : IoErr} {l : List (Option SourceReply)} (hi : s.decState = .idle)
    (h : execDecode s = .next (decReplyPrefix s.src.rest (.err e) ((decRequest s).setSrcAnswers l))) :
    execDecode s = .next { s with
      src := { s.src with pos := s.src.pos + s.failedConsumption 1 s.src.rest.length }
      srcAnswers := l
      record := s.record ++ [.ioError .x2 e]
      trace := s.trace ++ [.decReq, .srcReq 1, .srcErr e, .decDone (.ioError e)]
      draws := s.draws + 1 } := by
  rw [h, decReplyPrefix_err]
  simp [raiseIoFailure_x2, loseBytes_eq, decRequest_eq, State.setSrcAnswers, State.emit, State.failedConsumption, hi]

/-- The simple source at its end: `DECODE` fails as if the source had answered `EndOfInput` (R34). -/
theorem execDecode_at_end {s : State} (hi : s.decState = .idle) (ha : s.srcAnswers = []) (hr : s.src.rest = []) :
    execDecode s =
      .next (decReplyPrefix s.src.rest (.err Config.endOfInput) ((decRequest s).setSrcAnswers [])) := by
  rw [execDecode_of_simple hi ha, hr, decReplyPrefix_nil, setSrcAnswers_self (s := decRequest s) ha]

/-- Settles O35: a failing answer and each way to meet the end of the source come to the same reply step. -/
theorem decodeFirstReadFailure : Obligations.DecodeFirstReadFailure := by
  intro s e l hi h
  have hexec : execDecode s = .next (decReplyPrefix s.src.rest (.err e) ((decRequest s).setSrcAnswers l)) := by
    rcases h with ha | ⟨hr, rfl, ⟨ha, rfl⟩ | ⟨upper, ha⟩⟩
    · exact execDecode_of_answer hi ha
    · exact execDecode_at_end hi ha hr
    · rw [execDecode_of_answer hi ha, hr, decReplyPrefix_nil]
  exact ⟨_, _, execDecode_of_prefix_err hi hexec, failedConsumption_le s 1 s.src.rest.length, rfl⟩

/-! ### X3 -/

/-- DEC behind the first byte `p` of a longer Encoding, which arrived with `upper` on the other lanes: the other
bytes are asked for, and the source has the answers `l` left (R103). -/
def State.awaitingRest (s : State) (p : Byte) (upper : BitVec 64) (l : List (Option SourceReply)) : State :=
  { s with
    decState := .rdRest
    decPrefix := p
    src := { s.src with pos := s.src.pos + 1 }
    srcAnswers := l
    trace := s.trace ++
      [.decReq, .srcReq 1, .srcOk (srcLanes [p] upper), .srcReq (BitVec.ofNat 4 (prefixLen p - 1))] }

/-- The first byte of a longer Encoding takes `DECODE` to its second read (R98, R103). -/
theorem decReplyPrefix_long {p : Byte} (hp : prefixLen p ≠ 1) (tail : List Byte) (upper : BitVec 64) (s : State)
    (l : List (Option SourceReply)) :
    decReplyPrefix (p :: tail) (.yield upper) ((decRequest s).setSrcAnswers l) =
      (s.awaitingRest p upper l).withSrcAnswer (decReplyRest tail) := by
  rw [decReplyPrefix_yield_cons, if_neg hp]
  simp [State.awaitingRest, decAskRest_eq, decRequest_eq, State.setSrcAnswers, State.emit, State.consume]

/-- A failing answer at the second read is X3 (R103). -/
theorem decReplyRest_err (next : List Byte) (e : IoErr) (s : State) :
    decReplyRest next (.err e) s =
      ((s.loseBytes (prefixLen s.decPrefix - 1) next.length).emit (.srcErr e)).raiseIoFailure .x3 e := rfl

/-- Settles O36: the first byte is consumed, and the second read is answered at once with the failure. -/
theorem decodeSecondReadFailure : Obligations.DecodeSecondReadFailure := by
  intro s e upper p tail l hi hr hp ha
  have hexec : execDecode s = .next (decReplyRest tail (.err e) (s.awaitingRest p upper l)) := by
    rw [execDecode_of_answer hi ha, hr, decReplyPrefix_long (by omega), withSrcAnswer_some _ rfl]
    rfl
  refine ⟨_, _, hexec, failedConsumption_le s (prefixLen p - 1) tail.length, ?_⟩
  simp [decReplyRest_err, State.awaitingRest, raiseIoFailure_x3, loseBytes_eq, State.emit, State.failedConsumption, hi]

end Sys2Proof.Machine
end

section
/-! The codec on one Encoding: `DecValue`, and the value that DEC forms, give back what the encoder wrote (R80, R95,
R103). -/

namespace Sys2Proof.Machine

/-! ### What the encoder writes -/

/-- `EncInt` is the integer of the WIRE form of its class (R80, R55, R56). -/
theorem encInt_eq_wireInt (v : Value) : encInt v = wireInt (numBytes v) v := by
  have hn := numBytes_pos v
  simp only [encInt, wireInt]
  split
  · rw [Nat.shiftLeft_or_distrib, ← Nat.shiftLeft_add, Nat.add_sub_cancel' hn]
  · rfl

theorem encBytes_eq_wireBytes (v : Value) : encBytes v = wireBytes (numBytes v) v := by
  rw [encBytes, wireBytes, encInt_eq_wireInt]

@[simp] theorem length_encBytes (v : Value) : (encBytes v).length = numBytes v := length_bytesLE _ _

/-- Below nine bytes a Value fits the payload bits of its class (R72). -/
theorem lt_of_numBytes_le {v : Value} (h : numBytes v ≤ 8) : v.toNat < 2 ^ (7 * numBytes v) := by
  have hpos := numBytes_pos v
  exact (bits_le_iff v (by omega)).1 ((numBytes_le_iff_bits v hpos h).1 (Nat.le_refl _))

/-- `EncInt(v)` fits `NumBytes(v)` bytes (R80). -/
theorem encInt_lt (v : Value) : encInt v < 256 ^ numBytes v := by
  rw [encInt_eq_wireInt]
  rcases Nat.lt_or_ge 8 (numBytes v) with h9 | h8
  · have h9 : numBytes v = 9 := by have := numBytes_le v; omega
    have := v.isLt
    rw [h9, wireInt_hi]
    omega
  · exact wireInt_lt v (numBytes_pos v) h8 (lt_of_numBytes_le h8)

theorem le_encBytes (v : Value) : le (encBytes v) = encInt v := le_bytesLE_of_lt (encInt_lt v)

/-- The decoder's shift takes the payload out of the integer of a WIRE form (R58, R95). -/
theorem wireInt_shiftRight {n : Nat} (v : Value) (h1 : 1 ≤ n) (h9 : n ≤ 9) :
    wireInt n v >>> min n 8 = v.toNat := by
  rcases Nat.lt_or_ge 8 n with h | h8
  · obtain rfl : n = 9 := by omega
    rw [wireInt_hi, Nat.shiftRight_eq_div_pow]
    exact Nat.mul_div_cancel _ (by decide)
  · have hmarker : 2 ^ (n - 1) < 2 ^ n := Nat.pow_lt_pow_right (by omega) (by omega)
    rw [wireInt_lo v h1 h8, Nat.min_eq_left h8, Nat.shiftRight_eq_div_pow, Nat.mul_comm,
      Nat.mul_add_div (Nat.two_pow_pos n), Nat.div_eq_of_lt hmarker, Nat.add_zero]

/-- The first byte that the encoder writes declares the length it wrote (R87). -/
theorem encBytes_cons (v : Value) : ∃ p rest, encBytes v = p :: rest ∧ prefixLen p = numBytes v :=
  ⟨_, _, bytesLE_head (numBytes_pos v), by
    rw [encInt_eq_wireInt, prefixLen_wire v (numBytes_pos v) (numBytes_le v)]⟩

theorem accepted_encBytes (v : Value) : accepted (encBytes v) = true := by
  obtain ⟨p, rest, h, hp⟩ := encBytes_cons v
  exact accepted_iff.2 ⟨p, rest, h, by rw [length_encBytes, hp]⟩

/-- Decoding an Encoding gives the Value back (R119). -/
theorem decValue_encBytes (v : Value) : decValue (encBytes v) = v := by
  obtain ⟨p, rest, h, hp⟩ := encBytes_cons v
  have hlen : (p :: rest).length = prefixLen p := by rw [← h, length_encBytes, hp]
  rw [h, decValue_eq hlen, ← h, le_encBytes, encInt_eq_wireInt, hp,
    wireInt_shiftRight v (numBytes_pos v) (numBytes_le v), BitVec.ofNat_toNat, BitVec.setWidth_eq]

/-! ### The value DEC forms -/

/-- A one-byte Encoding: the shift of the first byte is its `DecValue` (R97). -/
theorem shortValue_eq_decValue {p : Byte} (h : prefixLen p = 1) : shortValue p = decValue [p] := by
  have hle : le [p] = p.toNat := Nat.add_zero _
  rw [decValue_eq (by simp [h]), h, hle, shortValue, ← BitVec.ofNat_toNat, BitVec.toNat_ushiftRight]
  rfl

/-- A longer Encoding: the latched first byte and the lanes asked for give its `DecValue` (R96, R103, U8). -/
theorem restValue_eq_decValue {p : Byte} {rest : List Byte} (upper : BitVec 64)
    (h : (p :: rest).length = prefixLen p) : restValue p (srcLanes rest upper) = decValue (p :: rest) := by
  have hp9 := prefixLen_le p
  have hn : prefixLen p - 1 = rest.length := by rw [← h, List.length_cons, Nat.add_sub_cancel]
  have hlanes := srcLanes_toNat_mod rest upper (by omega)
  have hp : p.toNat < 2 ^ 8 := p.isLt
  have hcat : (le rest <<< 8) ||| p.toNat = le (p :: rest) := by
    rw [← Nat.shiftLeft_add_eq_or_of_lt hp, Nat.shiftLeft_eq, le_cons]
    omega
  simp only [restValue, decValue, hn, hlanes, hcat]
  split
  · rfl
  · rw [← hcat, Nat.shiftRight_or_distrib, Nat.shiftLeft_shiftRight, Nat.shiftRight_eq_div_pow p.toNat,
      Nat.div_eq_of_lt hp, Nat.or_zero]

end Sys2Proof.Machine
end

section
/-! Runs of requests on a simple sink and a simple source: Encodings are appended and Values delivered in order (R42,
R126). -/

namespace Sys2Proof.Machine

/-! ### ENCODE after ENCODE -/

/-- On a clean sink that accepts, `ENCODE` appends its Encoding and completes `OK` (R83, R86). -/
theorem execEncode_of_accepts {v : Value} {s : State} {content : List Byte} (hi : s.encState = .idle)
    (hc : s.snk = .clean content) (ha : SinkAccepts s) :
    execEncode v s = .next { s with
      encV := v
      snk := .clean (content ++ encBytes v)
      snkAnswers := s.snkAnswers.tail
      trace := s.trace ++ [.encReq v, .snkReq (snkLen v) (snkData v), .snkOk, .encDone .ok] } := by
  have hreply : (encRequest v s).withSnkAnswer encReply =
      encReply .ok ((encRequest v s).setSnkAnswers s.snkAnswers.tail) := by
    rcases hs : s.snkAnswers with _ | ⟨a, l⟩
    · rw [withSnkAnswer_nil (s := encRequest v s) _ hs, List.tail_nil,
        setSnkAnswers_self (s := encRequest v s) hs]
    · obtain rfl : a = some .ok := by simpa [SinkAccepts, hs] using ha
      rw [withSnkAnswer_some (s := encRequest v s) _ hs, List.tail_cons]
  rw [execEncode_eq hi hc, hreply]
  simp [encReply_ok, encRequest_eq, State.setSnkAnswers, Sink.append, hi, hc]

/-- A request to an idle ENC with a clean simple sink leaves it so, with the Encoding appended. -/
theorem step_of_encReq {v : Value} {s : State} {content : List Byte} {l : List Input} (hi : s.encState = .idle)
    (hc : s.snk = .clean content) (ha : s.snkAnswers = []) (hin : s.inputs = .request (.encReq v) :: l) :
    ∃ u, step s = .next u ∧ u.encState = .idle ∧ u.snk = .clean (content ++ encBytes v) ∧ u.snkAnswers = [] ∧
      u.inputs = l ∧ u.record = s.record ∧ u.src = s.src ∧
      u.trace.filterMap PortEvent.encOutcome = s.trace.filterMap PortEvent.encOutcome ++ [.ok] := by
  have hacc : SinkAccepts (s.setInputs l) := by simp [SinkAccepts, ha]
  refine ⟨_, (step_of_request hin).trans (execEncode_of_accepts (s := s.setInputs l) hi hc hacc), hi, rfl, ?_, rfl,
    rfl, rfl, ?_⟩
  · simp [ha]
  · simp [PortEvent.encOutcome, List.filterMap_cons]

/-- Settles O59, by induction on the Values: each request leaves ENC and its sink ready for the next one. -/
theorem encodesConcatenate : Obligations.EncodesConcatenate := by
  intro vs
  induction vs with
  | nil =>
    intro s content l hi hc _ hin
    exact ⟨s, rfl, by simpa using hc, hi, hin, rfl, rfl, by simp⟩
  | cons v vs ih =>
    intro s content l hi hc ha hin
    obtain ⟨u, hstep, hi', hc', ha', hin', hrec, hsrc, hout⟩ := step_of_encReq hi hc ha hin
    obtain ⟨t, hrun, hsnk, hidle, hleft, hrec', hsrc', hout'⟩ := ih u _ l hi' hc' ha' hin'
    refine ⟨t, (run_next (M := core) _ hstep).trans hrun, ?_, hidle, hleft, hrec'.trans hrec, hsrc'.trans hsrc, ?_⟩
    · rw [hsnk, List.append_assoc, List.flatMap_cons]
    · rw [hout', hout, List.append_assoc, List.length_cons, List.replicate_succ, List.singleton_append]

/-! ### DECODE of one Encoding -/

theorem SourceYields.of_simple {s : State} (h : s.srcAnswers = []) (k : Nat) : SourceYields k s := by
  simp [SourceYields, h]

/-- A read request to a source that yields goes on to its reply step with the bytes. -/
theorem withSrcAnswer_of_yields {s : State} {k : Nat} (f : SourceReply → State → State)
    (h : SourceYields (k + 1) s) :
    ∃ upper, s.withSrcAnswer f = f (.yield upper) (s.setSrcAnswers s.srcAnswers.tail) ∧
      SourceYields k (s.setSrcAnswers s.srcAnswers.tail) := by
  rcases hs : s.srcAnswers with _ | ⟨a, l⟩
  · refine ⟨0, ?_, .of_simple rfl k⟩
    rw [withSrcAnswer_nil f hs, List.tail_nil, setSrcAnswers_self hs]
  · rw [SourceYields, hs, List.take_succ_cons, List.forall_mem_cons] at h
    obtain ⟨⟨upper, rfl⟩, hl⟩ := h
    exact ⟨upper, withSrcAnswer_some f hs, hl⟩

/-- `DECODE` of a one-byte Encoding: one read (R97, R99). -/
theorem execDecode_of_short {s : State} {p : Byte} {tail : List Byte} (hi : s.decState = .idle)
    (hr : s.src.rest = p :: tail) (hp : prefixLen p = 1) (hy : SourceYields 1 s) :
    ∃ upper, execDecode s = .next { s with
      src := { s.src with pos := s.src.pos + 1 }
      srcAnswers := s.srcAnswers.tail
      trace := s.trace ++
        [.decReq, .srcReq 1, .srcOk (srcLanes [p] upper), .decDone (.ok (shortValue p))] } := by
  obtain ⟨upper, h, -⟩ := withSrcAnswer_of_yields (s := decRequest s) (decReplyPrefix s.src.rest) hy
  refine ⟨upper, ?_⟩
  rw [execDecode, decodeFrom_eq hi, h, hr, decReplyPrefix_yield_cons, if_pos hp]
  simp [decodeDone_eq, decRequest_eq, State.setSrcAnswers, State.emit, State.consume, hi]

/-- `DECODE` of a longer Encoding: the first byte, and then the other bytes at once (R98, R99). -/
theorem execDecode_of_long {s : State} {p : Byte} {more tail : List Byte} (hi : s.decState = .idle)
    (hr : s.src.rest = p :: (more ++ tail)) (hlen : (p :: more).length = prefixLen p) (hp : prefixLen p ≠ 1)
    (hy : SourceYields 2 s) :
    ∃ u w, execDecode s = .next { s with
      src := { s.src with pos := s.src.pos + (p :: more).length }
      decPrefix := p
      srcAnswers := s.srcAnswers.tail.tail
      trace := s.trace ++
        [.decReq, .srcReq 1, .srcOk (srcLanes [p] u), .srcReq (BitVec.ofNat 4 (prefixLen p - 1)),
         .srcOk (srcLanes more w), .decDone (.ok (restValue p (srcLanes more w)))] } := by
  have hmore : prefixLen p - 1 = more.length := by rw [← hlen, List.length_cons, Nat.add_sub_cancel]
  have hpos : s.src.pos + 1 + more.length = s.src.pos + (more.length + 1) := by omega
  obtain ⟨u, hfirst, hy'⟩ := withSrcAnswer_of_yields (s := decRequest s) (decReplyPrefix s.src.rest) hy
  obtain ⟨w, hsecond, -⟩ := withSrcAnswer_of_yields (s := s.awaitingRest p u s.srcAnswers.tail)
    (decReplyRest (more ++ tail)) hy'
  refine ⟨u, w, ?_⟩
  rw [execDecode, decodeFrom_eq hi, hfirst, hr, decReplyPrefix_long hp]
  refine (congrArg Host.Outcome.next hsecond).trans ?_
  rw [decReplyRest, memRead_yield w _ (by simp [State.awaitingRest, hmore])]
  simp [State.awaitingRest, hmore, hpos, decodeDone_eq, State.setSrcAnswers, State.emit, State.consume, hi]

/-- `DECODE` of an accepted sequence delivers its `DecValue` and consumes its bytes (R95, R99, R100). -/
theorem execDecode_of_accepted {s : State} {bs tail : List Byte} (hi : s.decState = .idle)
    (ha : s.srcAnswers = []) (hr : s.src.rest = bs ++ tail) (hbs : accepted bs = true) :
    ∃ p ev, execDecode s = .next { s with
        src := { s.src with pos := s.src.pos + bs.length }
        decPrefix := p
        trace := s.trace ++ (ev ++ [.decDone (.ok (decValue bs))]) } ∧
      ev.filterMap PortEvent.decOutcome = [] := by
  obtain ⟨p, more, rfl, hlen⟩ := accepted_iff.1 hbs
  rw [List.cons_append] at hr
  by_cases hp : prefixLen p = 1
  · obtain rfl : more = [] := List.length_eq_zero_iff.1 (by rw [List.length_cons] at hlen; omega)
    obtain ⟨u, h⟩ := execDecode_of_short hi hr hp (.of_simple ha 1)
    refine ⟨s.decPrefix, [.decReq, .srcReq 1, .srcOk (srcLanes [p] u)], ?_, rfl⟩
    rw [h, shortValue_eq_decValue hp]
    simp [ha]
  · obtain ⟨u, w, h⟩ := execDecode_of_long hi hr hlen hp (.of_simple ha 2)
    refine ⟨p, [.decReq, .srcReq 1, .srcOk (srcLanes [p] u), .srcReq (BitVec.ofNat 4 (prefixLen p - 1)),
      .srcOk (srcLanes more w)], ?_, rfl⟩
    rw [h, restValue_eq_decValue w hlen]
    simp [ha]

/-! ### DECODE after DECODE -/

/-- A request to an idle DEC at an Encoding on a simple source delivers its Value and ends just behind it. -/
theorem step_of_decReq {v : Value} {s : State} {tail : List Byte} {l : List Input} (hi : s.decState = .idle)
    (ha : s.srcAnswers = []) (hr : s.src.rest = encBytes v ++ tail) (hin : s.inputs = .request .decReq :: l) :
    ∃ u, step s = .next u ∧ u.decState = .idle ∧ u.srcAnswers = [] ∧ u.src.pos = s.src.pos + numBytes v ∧
      u.src.rest = tail ∧ u.inputs = l ∧ u.record = s.record ∧ u.snk = s.snk ∧
      u.trace.filterMap PortEvent.decOutcome = s.trace.filterMap PortEvent.decOutcome ++ [.ok v] := by
  obtain ⟨p, ev, h, hev⟩ := execDecode_of_accepted (s := s.setInputs l) hi ha hr (accepted_encBytes v)
  rw [decValue_encBytes, length_encBytes] at h
  have hrest : (s.consume (numBytes v)).src.rest = tail := by
    rw [consume_rest, hr, List.drop_left' (length_encBytes v)]
  refine ⟨_, (step_of_request hin).trans h, hi, ha, rfl, hrest, rfl, rfl, rfl, ?_⟩
  simp [hev, PortEvent.decOutcome]

/-- As many `DECODE`s as there are Encodings deliver their Values in order, and leave DEC and its simple source
ready for the next one (R126). -/
theorem run_decodes (vs : List Value) {s : State} {tail : List Byte} {l : List Input} (hi : s.decState = .idle)
    (ha : s.srcAnswers = []) (hr : s.src.rest = vs.flatMap encBytes ++ tail)
    (hin : s.inputs = List.replicate vs.length (.request .decReq) ++ l) :
    ∃ t : State, Host.Core.run core vs.length s = .next t ∧ t.decState = .idle ∧ t.srcAnswers = [] ∧
      t.src.pos = s.src.pos + (vs.map numBytes).sum ∧ t.src.rest = tail ∧ t.inputs = l ∧ t.record = s.record ∧
      t.snk = s.snk ∧
      t.trace.filterMap PortEvent.decOutcome = s.trace.filterMap PortEvent.decOutcome ++ vs.map .ok := by
  induction vs generalizing s with
  | nil => exact ⟨s, rfl, hi, ha, rfl, hr, hin, rfl, rfl, by simp⟩
  | cons v vs ih =>
    rw [List.flatMap_cons, List.append_assoc] at hr
    rw [List.length_cons, List.replicate_succ, List.cons_append] at hin
    obtain ⟨u, hstep, hi', ha', hpos, hr', hin', hrec, hsnk, hout⟩ := step_of_decReq hi ha hr hin
    obtain ⟨t, hrun, hidle, hsimple, hpos', hrest, hleft, hrec', hsnk', hout'⟩ := ih hi' ha' hr' hin'
    refine ⟨t, (run_next (M := core) _ hstep).trans hrun, hidle, hsimple, ?_, hrest, hleft, hrec'.trans hrec,
      hsnk'.trans hsnk, ?_⟩
    · rw [hpos', hpos, List.map_cons, List.sum_cons, Nat.add_assoc]
    · rw [hout', hout, List.append_assoc, List.map_cons, List.singleton_append]

/-- Settles O60: the run delivers the Values; a further `DECODE` at the end of the content is X2 and loses nothing. -/
theorem decodesReturnTheValuesInOrder : Obligations.DecodesReturnTheValuesInOrder := by
  intro vs s tail l hi ha hr hin
  obtain ⟨t, hrun, hidle, hsimple, hpos, hrest, hleft, hrec, hsnk, hout⟩ := run_decodes vs hi ha hr hin
  refine ⟨t, hrun, hpos, hrest, hidle, hleft, hrec, hsnk, hout, fun htail => ?_⟩
  rw [htail] at hrest
  refine ⟨_, execDecode_of_prefix_err hidle (execDecode_at_end hidle hsimple hrest), ?_, rfl⟩
  simp [hrest]

end Sys2Proof.Machine
end

section
/-! The decoder of Encodings undoes the encoder and the encoder the decoder; a stream of Encodings splits in one way
(R59 to R61). -/

namespace Sys2Proof.Machine

/-! ### Length classes and their payloads -/

/-- `n` is a length class, and the payload fits its payload bits (R54 to R56). -/
structure FitsClass (n : Nat) (payload : Value) : Prop where
  pos : 1 ≤ n
  le_nine : n ≤ 9
  lt : n ≤ 8 → payload.toNat < 2 ^ (7 * n)

theorem wellFormed_iff_fitsClass {i : Instr} {n : Nat} {payload : Value} (h : i.wireClass = some (n, payload)) :
    i.wellFormed = true ↔ FitsClass n payload := by
  have hbound : i.wellFormed = true ↔ (n ≤ 8 → payload.toNat < 2 ^ (7 * n)) := by
    cases i <;> cases h <;> simp [Instr.wellFormed]
  have hclass : 1 ≤ n ∧ n ≤ 9 := by cases i <;> cases h <;> decide
  exact hbound.trans ⟨fun hlt => ⟨hclass.1, hclass.2, hlt⟩, FitsClass.lt⟩

/-- The integer of a WIRE form fits its bytes, in each class (R55, R56). -/
theorem FitsClass.wireInt_lt {n : Nat} {v : Value} (h : FitsClass n v) : wireInt n v < 256 ^ n := by
  rcases Nat.lt_or_ge 8 n with h9 | h8
  · obtain rfl : n = 9 := by have := h.le_nine; omega
    have := v.isLt
    rw [wireInt_hi]
    omega
  · exact Sys2Proof.wireInt_lt v h.pos h8 (h.lt h8)

/-! ### Accepted sequences and their `DecValue` -/

theorem accepted_length {es : List Byte} (h : accepted es = true) : 1 ≤ es.length ∧ es.length ≤ 9 := by
  obtain ⟨p, rest, rfl, hlen⟩ := accepted_iff.1 h
  exact hlen ▸ ⟨prefixLen_pos p, prefixLen_le p⟩

/-- `DecValue` of an accepted sequence is the shifted integer, with no bit lost (R95). -/
theorem decValue_toNat {es : List Byte} (h : accepted es = true) :
    (decValue es).toNat = le es / 2 ^ min es.length 8 := by
  have hfit : le es < 2 ^ 64 * 2 ^ min es.length 8 := by
    refine (le_lt es).trans_le ?_
    rw [show (256 : Nat) = 2 ^ 8 from rfl, ← Nat.pow_mul, ← Nat.pow_add]
    have := (accepted_length h).2
    exact Nat.pow_le_pow_right (by decide) (by omega)
  obtain ⟨p, rest, rfl, hlen⟩ := accepted_iff.1 h
  rw [decValue_eq hlen, ← hlen, BitVec.toNat_ofNat, Nat.shiftRight_eq_div_pow,
    Nat.mod_eq_of_lt (Nat.div_lt_of_lt_mul (Nat.mul_comm _ _ ▸ hfit))]

/-- The value of an accepted sequence fits the class of its length. -/
theorem fitsClass_decValue {es : List Byte} (h : accepted es = true) : FitsClass es.length (decValue es) where
  pos := (accepted_length h).1
  le_nine := (accepted_length h).2
  lt h8 := by
    rw [decValue_toNat h, Nat.min_eq_left h8]
    refine Nat.div_lt_of_lt_mul ((le_lt es).trans_eq ?_)
    rw [show (256 : Nat) = 2 ^ 8 from rfl, ← Nat.pow_mul, ← Nat.pow_add]
    congr 1
    omega

/-- An accepted sequence is the WIRE form of its length and value (R55, R56, R60). -/
theorem wireBytes_decValue {es : List Byte} (h : accepted es = true) : wireBytes es.length (decValue es) = es := by
  obtain ⟨p, rest, rfl, hlen⟩ := accepted_iff.1 h
  rw [wireBytes, decValue_eq hlen, hlen, wireInt_payload p rest hlen, ← hlen, bytesLE_le]

/-- The value of a WIRE form is its payload (R58, R95). -/
theorem FitsClass.decValue_wireBytes {n : Nat} {v : Value} (h : FitsClass n v) : decValue (wireBytes n v) = v := by
  apply BitVec.eq_of_toNat_eq
  rw [decValue_toNat (Laws.SelfDescribing.accepted_wireBytes v h.pos h.le_nine), wireBytes, length_bytesLE,
    le_bytesLE_of_lt h.wireInt_lt, ← Nat.shiftRight_eq_div_pow, wireInt_shiftRight v h.pos h.le_nine]

/-! ### What the decoder reads -/

/-- In front of any bytes the decoder reads an accepted sequence whole, as the WIRE form of its length and value, and
leaves the rest (R59, R61). -/
theorem decodeBytes_append {es : List Byte} (h : accepted es = true) (tail : List Byte) :
    decodeBytes (es ++ tail) = .ok (wireInstr es.length (decValue es), tail) := by
  obtain ⟨p, rest, rfl, hlen⟩ := accepted_iff.1 h
  rw [List.cons_append, decodeBytes_cons, ← List.cons_append, if_neg (by rw [List.length_append]; omega),
    List.take_left' hlen, List.drop_left' hlen, ← decValue_eq hlen, hlen]

/-- As many bytes as the first one declares begin with an accepted sequence (R60). -/
theorem exists_accepted_append {p : Byte} {rest : List Byte} (h : prefixLen p ≤ (p :: rest).length) :
    ∃ es tail, accepted es = true ∧ p :: rest = es ++ tail := by
  refine ⟨(p :: rest).take (prefixLen p), (p :: rest).drop (prefixLen p), ?_, (List.take_append_drop _ _).symm⟩
  exact accepted_iff.2 ⟨p, rest.take (tz8 p), rfl, by rw [List.length_take, Nat.min_eq_left h]⟩

/-- The decoder reads something exactly when there are as many bytes as the first one declares (R59, R60). -/
theorem decodeBytes_isOk_iff (bs : List Byte) :
    (∃ i tail, decodeBytes bs = .ok (i, tail)) ↔ ∃ p rest, bs = p :: rest ∧ prefixLen p ≤ bs.length := by
  cases bs with
  | nil => simp [decodeBytes]
  | cons p rest =>
    constructor
    · rintro ⟨i, tail, h⟩
      refine ⟨p, rest, rfl, Nat.not_lt.1 fun hlt => ?_⟩
      rw [decodeBytes_cons, if_pos hlt] at h
      cases h
    · rintro ⟨_, _, ⟨rfl, rfl⟩, hlen⟩
      obtain ⟨es, tail, hacc, heq⟩ := exists_accepted_append hlen
      exact ⟨_, tail, heq ▸ decodeBytes_append hacc tail⟩

/-- What the decoder reads is the accepted sequence at the front. -/
theorem decodeBytes_eq_ok {bs tail : List Byte} {i : Instr} (h : decodeBytes bs = .ok (i, tail)) :
    ∃ es, accepted es = true ∧ bs = es ++ tail ∧ i = wireInstr es.length (decValue es) := by
  obtain ⟨p, rest, rfl, hlen⟩ := (decodeBytes_isOk_iff bs).1 ⟨i, tail, h⟩
  obtain ⟨es, tail', hacc, heq⟩ := exists_accepted_append hlen
  rw [heq, decodeBytes_append hacc] at h
  cases h
  exact ⟨es, hacc, heq, rfl⟩

/-! ### The two round trips -/

/-- Settles O5: a WIRE form's bytes are an accepted sequence of its class with its payload as their value; an
operation is told by its port. -/
theorem decodeOfEncodeIsTheInstruction : Obligations.DecodeOfEncodeIsTheInstruction := by
  intro i hwf
  cases hc : i.wireClass with
  | none => cases i <;> cases hc <;> rfl
  | some c =>
    obtain ⟨n, v⟩ := c
    have hfit := (wellFormed_iff_fitsClass hc).1 hwf
    have hread := decodeBytes_append (Laws.SelfDescribing.accepted_wireBytes v hfit.pos hfit.le_nine) []
    rw [List.append_nil, hfit.decValue_wireBytes, wireBytes, length_bytesLE, ← wireBytes] at hread
    rw [class_encode hc, decode, hread, class_eq hc]
    rfl

/-- Settles O6: what was read is the WIRE form of the accepted sequence at the front, and its bytes are that
sequence. -/
theorem encodeOfDecodeIsTheBytesRead : Obligations.EncodeOfDecodeIsTheBytesRead := by
  intro bs tail i h
  obtain ⟨es, hacc, rfl, rfl⟩ := decodeBytes_eq_ok h
  have hfit := fitsClass_decValue hacc
  have hclass := wireInstr_class (decValue es) hfit.pos hfit.le_nine
  refine ⟨(wellFormed_iff_fitsClass hclass).2 hfit, es, ?_, hacc, rfl⟩
  rw [class_encode hclass, wireBytes_decValue hacc]

/-- Settles O7. -/
theorem onlyMissingBytesAreUndecodable : Obligations.OnlyMissingBytesAreUndecodable := decodeBytes_isOk_iff

/-! ### Splitting a stream -/

/-- The same bytes begin with one accepted sequence only: the decoder reads that one and leaves what is behind it. -/
theorem accepted_append_inj {as bs xs ys : List Byte} (ha : accepted as = true) (hb : accepted bs = true)
    (h : as ++ xs = bs ++ ys) : as = bs ∧ xs = ys := by
  have hread := decodeBytes_append ha xs
  rw [h, decodeBytes_append hb ys, Except.ok.injEq, Prod.mk.injEq] at hread
  obtain rfl := hread.2
  exact ⟨List.append_cancel_right h, rfl⟩

theorem accepted_ne_nil {es : List Byte} (h : accepted es = true) : es ≠ [] :=
  List.length_pos_iff.1 (accepted_length h).1

/-- A concatenation of accepted sequences splits in one way (R61). -/
theorem flatten_inj_of_accepted (as bs : List (List Byte)) (ha : ∀ a ∈ as, accepted a = true)
    (hb : ∀ b ∈ bs, accepted b = true) (h : as.flatten = bs.flatten) : as = bs := by
  induction as generalizing bs with
  | nil =>
    cases bs with
    | nil => rfl
    | cons b bs =>
      exact absurd (List.append_eq_nil_iff.1 h.symm).1 (accepted_ne_nil (hb b List.mem_cons_self))
  | cons a as ih =>
    cases bs with
    | nil => exact absurd (List.append_eq_nil_iff.1 h).1 (accepted_ne_nil (ha a List.mem_cons_self))
    | cons b bs =>
      rw [List.forall_mem_cons] at ha hb
      obtain ⟨rfl, htail⟩ := accepted_append_inj ha.1 hb.1 h
      rw [ih bs ha.2 hb.2 htail]

/-- Settles O8: a beginning of an accepted sequence is the one in front of nothing. -/
theorem encodingsSplitInOneWay : Obligations.EncodingsSplitInOneWay := by
  refine ⟨?_, flatten_inj_of_accepted⟩
  rintro as bs ha hb ⟨tail, h⟩
  exact (accepted_append_inj ha hb (h.trans (List.append_nil bs).symm)).1

end Sys2Proof.Machine
end

section
/-! The bytes of an Encoding: the slices of the Value that they hold, and how the last one tells a canonical sequence
(R60, R81). -/

namespace Sys2Proof.Machine

/-! ### The slices -/

theorem encBytes_getElem? {v : Value} {i : Nat} (h : i < numBytes v) :
    (encBytes v)[i]? = some (BitVec.ofNat 8 (encInt v / 2 ^ (8 * i))) := by
  rw [encBytes, bytesLE_getElem?, if_pos h, show (256 : Nat) = 2 ^ 8 from rfl, ← Nat.pow_mul]

/-- `EncInt` of a class up to eight: the Value above the marker bit (R80). -/
theorem encInt_lo {v : Value} (h : numBytes v ≤ 8) :
    encInt v = v.toNat * 2 ^ numBytes v + 2 ^ (numBytes v - 1) := by
  rw [encInt_eq_wireInt, wireInt_lo v (numBytes_pos v) h]

theorem encInt_hi {v : Value} (h : numBytes v = 9) : encInt v = v.toNat * 2 ^ 8 := by
  rw [encInt_eq_wireInt, h, wireInt_hi]

/-- The first byte: the marker bit and the low payload bits (R81). -/
theorem encBytes_first {v : Value} (h : numBytes v ≤ 8) :
    (encBytes v)[0]? =
      some (BitVec.ofNat 8 (v.toNat % 2 ^ (8 - numBytes v) * 2 ^ numBytes v + 2 ^ (numBytes v - 1))) := by
  have hslice : v.toNat * 2 ^ numBytes v % 2 ^ 8 = v.toNat % 2 ^ (8 - numBytes v) * 2 ^ numBytes v := by
    rw [← Nat.mul_mod_mul_right, ← Nat.pow_add, Nat.sub_add_cancel h]
  rw [encBytes_getElem? (numBytes_pos v), encInt_lo h, Nat.mul_zero, Nat.pow_zero, Nat.div_one, ← hslice]
  congr 1
  apply BitVec.eq_of_toNat_eq
  rw [BitVec.toNat_ofNat, BitVec.toNat_ofNat, Nat.mod_add_mod]

/-- A later byte of a class up to eight: the marker bit lies below it (R81). -/
theorem encBytes_later {v : Value} {i : Nat} (h : numBytes v ≤ 8) (h1 : 1 ≤ i) (hi : i < numBytes v) :
    (encBytes v)[i]? = some (BitVec.ofNat 8 (v.toNat / 2 ^ (8 * i - numBytes v))) := by
  have hsplit : 2 ^ (8 * i) = 2 ^ numBytes v * 2 ^ (8 * i - numBytes v) := by
    rw [← Nat.pow_add, Nat.add_sub_cancel' (by omega)]
  have hmarker : 2 ^ (numBytes v - 1) < 2 ^ numBytes v := Nat.pow_lt_pow_right (by omega) (by omega)
  rw [encBytes_getElem? hi, encInt_lo h, hsplit, ← Nat.div_div_eq_div_mul, Nat.mul_comm,
    Nat.mul_add_div (Nat.two_pow_pos _), Nat.div_eq_of_lt hmarker, Nat.add_zero]

/-- The bytes of a class of nine: a zero and the Value (R81). -/
theorem encBytes_nine {v : Value} (h : numBytes v = 9) :
    (encBytes v)[0]? = some 0 ∧
      ∀ i, 1 ≤ i → i ≤ 8 → (encBytes v)[i]? = some (BitVec.ofNat 8 (v.toNat / 2 ^ (8 * i - 8))) := by
  constructor
  · rw [encBytes_getElem? (numBytes_pos v), encInt_hi h]
    congr 1
    apply BitVec.eq_of_toNat_eq
    simp
  · intro i h1 h8
    have hsplit : 2 ^ (8 * i) = 2 ^ 8 * 2 ^ (8 * i - 8) := by rw [← Nat.pow_add, Nat.add_sub_cancel' (by omega)]
    rw [encBytes_getElem? (by omega), encInt_hi h, hsplit, ← Nat.div_div_eq_div_mul,
      Nat.mul_div_cancel _ (Nat.two_pow_pos 8)]

/-- Settles O16: the slices of each class; in a class of eight the first byte has no payload bit. -/
theorem encodedBytesHoldTheirSlices : Obligations.EncodedBytesHoldTheirSlices := by
  intro v
  refine ⟨length_encBytes v, fun i => encBytes_getElem?, fun h => encBytes_first (by omega), fun h => ?_,
    fun h i => encBytes_later h, encBytes_nine⟩
  rw [encBytes_first (by omega), h, Nat.sub_self, Nat.pow_zero, Nat.mod_one]
  rfl

/-! ### The canonical test -/

/-- The threshold form of `NumBytes` (R72). -/
theorem numBytes_le_iff (v : Value) {k : Nat} (h1 : 1 ≤ k) (h8 : k ≤ 8) :
    numBytes v ≤ k ↔ v.toNat < 2 ^ (7 * k) :=
  (numBytes_le_iff_bits v h1 h8).trans (bits_le_iff v (by omega))

/-- A payload that fits a class is written in no more bytes than that (R122). -/
theorem FitsClass.numBytes_le {n : Nat} {v : Value} (h : FitsClass n v) : numBytes v ≤ n := by
  rcases Nat.lt_or_ge 8 n with h9 | h8
  · exact (Machine.numBytes_le v).trans h9
  · exact (numBytes_le_iff v h.pos h8).2 (h.lt h8)

/-- An accepted sequence is what the encoder writes exactly when it has the length that the encoder chooses (R60). -/
theorem canonical_iff_length {bs : List Byte} (h : accepted bs = true) :
    canonical bs = true ↔ numBytes (decValue bs) = bs.length := by
  rw [canonical, beq_iff_eq]
  constructor
  · intro heq
    conv_rhs => rw [heq, length_encBytes]
  · intro hlen
    rw [encBytes_eq_wireBytes, hlen, wireBytes_decValue h]

/-- Beyond one byte: exactly when the value does not fit the class below. -/
theorem canonical_iff_threshold {bs : List Byte} (h : accepted bs = true) (h2 : 2 ≤ bs.length) :
    canonical bs = true ↔ 2 ^ (7 * (bs.length - 1)) ≤ (decValue bs).toNat := by
  have hle := (fitsClass_decValue h).numBytes_le
  have h9 := (accepted_length h).2
  have hbelow := numBytes_le_iff (decValue bs) (k := bs.length - 1) (by omega) (by omega)
  rw [canonical_iff_length h, ← Nat.not_lt, ← hbelow]
  omega

/-- A multiple of the weight of the last byte bounds the whole as it bounds that byte. -/
theorem mul_pow_le_le_concat_iff (bs : List Byte) (b : Byte) (m : Nat) :
    m * 256 ^ bs.length ≤ le (bs ++ [b]) ↔ m ≤ b.toNat := by
  have hpos : 0 < 256 ^ bs.length := Nat.pow_pos (by decide)
  rw [← Nat.le_div_iff_mul_le hpos, le_append, Nat.add_mul_div_left _ _ hpos, Nat.div_eq_of_lt (le_lt bs),
    Nat.zero_add, le_cons, le_nil, Nat.mul_zero, Nat.add_zero]

/-- The threshold in terms of the last byte: `m = 2` in the classes 2 to 8, `m = 1` in class 9. -/
theorem threshold_iff_last {bs : List Byte} {m : Nat} (h : accepted bs = true)
    (hm : m * 256 ^ (bs.length - 1) = 2 ^ (7 * (bs.length - 1)) * 2 ^ min bs.length 8) :
    2 ^ (7 * (bs.length - 1)) ≤ (decValue bs).toNat ↔ ∃ b, bs.getLast? = some b ∧ m ≤ b.toNat := by
  rw [decValue_toNat h, Nat.le_div_iff_mul_le (Nat.two_pow_pos _), ← hm]
  obtain ⟨init, b, rfl⟩ := (List.eq_nil_or_concat' bs).resolve_left (accepted_ne_nil h)
  rw [List.length_append, List.length_singleton, Nat.add_sub_cancel, mul_pow_le_le_concat_iff]
  simp

/-- Settles O9: the length is the encoder's exactly when the value reaches the class, and the last byte, which weighs
most, tells that: below class 9 its lowest bit still belongs to the class below. -/
theorem canonicalIsToldByTheLastByte : Obligations.CanonicalIsToldByTheLastByte := by
  intro bs h
  refine ⟨canonical_iff_length h, fun h1 => ?_, fun h2 h8 => ?_, fun h9 => ?_⟩
  · have hle := (fitsClass_decValue h).numBytes_le
    have hpos := numBytes_pos (decValue bs)
    exact (canonical_iff_length h).2 (by omega)
  · refine ⟨canonical_iff_threshold h h2, (canonical_iff_threshold h h2).trans (threshold_iff_last h ?_)⟩
    rw [Nat.min_eq_left h8, show (256 : Nat) = 2 ^ 8 from rfl, ← Nat.pow_mul, ← Nat.pow_add, ← Nat.pow_succ']
    congr 1
    omega
  · have hcan := canonical_iff_threshold h (by omega)
    have hlast := threshold_iff_last (m := 1) h (by rw [h9]; decide)
    rw [h9] at hcan hlast
    refine ⟨hcan, hcan.trans (hlast.trans ?_)⟩
    simp [Nat.one_le_iff_ne_zero, ← BitVec.toNat_inj]

end Sys2Proof.Machine
end

section
/-! The WIRE forms on DEC, and what the next request runs: the form at the source's position, which is what `DECODE`
does there (R59, R62, R99). -/

namespace Sys2Proof.Machine

/-! ### What a request runs -/

/-- At a whole Encoding `DECODE` is the WIRE form that stands there (R59, R99). -/
theorem exec_decode_eq_of_decodeBytes {s : State} {i : Instr} {tail : List Byte}
    (h : decodeBytes s.src.rest = .ok (i, tail)) :
    exec .decode s = exec i s := by
  have hfetch : fetched .decReq s = i := by simp only [fetched, h]
  rw [← hfetch, exec_fetched, decodeRequest]

/-- Settles O34. -/
theorem decodeRunsTheWireFormAtThePosition : Obligations.DecodeRunsTheWireFormAtThePosition :=
  fun _ _ _ h => exec_decode_eq_of_decodeBytes h

/-- Settles O49: the fetch makes no difference. -/
theorem stepPerformsTheRequestedOperation : Obligations.StepPerformsTheRequestedOperation :=
  fun _ _ _ h => step_of_request h

/-- Settles O48: the step is the operation of the port, and for `dec_req` at a whole Encoding its WIRE form. -/
theorem stepRunsTheFetchedInstruction : Obligations.StepRunsTheFetchedInstruction := by
  intro s l
  refine ⟨fun v h => step_of_request h, fun v h => step_of_request h, fun i tail h hd => ?_,
    fun _ h _ => step_of_request h⟩
  exact (step_of_request h).trans (exec_decode_eq_of_decodeBytes (s := s.setInputs l) hd)

/-! ### A word placed to run next -/

/-- What the decoder reads off the front it reads whatever follows (R61). -/
theorem decodeBytes_append_of_ok {bs tail : List Byte} {i : Instr} (h : decodeBytes bs = .ok (i, tail))
    (more : List Byte) : decodeBytes (bs ++ more) = .ok (i, tail ++ more) := by
  obtain ⟨es, hacc, rfl, rfl⟩ := decodeBytes_eq_ok h
  rw [List.append_assoc, decodeBytes_append hacc]

theorem decodeBytes_of_tableWord {nbits w : Nat} {i : Instr} (h : decodeTableWord nbits w = some i) :
    ∃ tail, decodeBytes (bytesLE 9 (w % 2 ^ nbits)) = .ok (i, tail) := by
  unfold decodeTableWord at h
  split at h
  · cases h
  · split at h
    · next hd => cases h; exact ⟨_, hd⟩
    · cases h

/-- Settles O50: the word's bytes stand at the position, whatever follows them there. -/
theorem placedWordIsRunNext : Obligations.PlacedWordIsRunNext := by
  intro s nbits w i h
  obtain ⟨tail, hd⟩ := decodeBytes_of_tableWord h
  have hplaced := place_rest s.src (bytesLE 9 (w % 2 ^ nbits))
  have hread := decodeBytes_append_of_ok hd (s.src.content.drop (s.src.pos + (bytesLE 9 (w % 2 ^ nbits)).length))
  rw [← hplaced] at hread
  refine ⟨(s.withFetchWord nbits w).setInputs s.inputs, rfl, ⟨_, hread⟩, rfl, rfl, ?_⟩
  rw [← exec_decode_eq_of_decodeBytes (s := (s.withFetchWord nbits w).setInputs s.inputs) hread]
  exact step_of_request (r := .decReq) rfl

/-! ### The WIRE forms -/

/-- A decode of a one-byte Encoding, in hand or at the source's position: one read (R97, R99). -/
theorem decodeFrom_of_short {s : State} {p : Byte} (hi : s.decState = .idle) (hp : prefixLen p = 1)
    (hy : SourceYields 1 s) (tail : List Byte) :
    ∃ u, decodeFrom (p :: tail) s = .next { s with
      src := { s.src with pos := s.src.pos + 1 }
      srcAnswers := s.srcAnswers.drop 1
      trace := s.trace ++ [.decReq, .srcReq 1, .srcOk (srcLanes [p] u)] ++ [.decDone (.ok (decValue [p]))] } := by
  obtain ⟨u, h, -⟩ := withSrcAnswer_of_yields (s := decRequest s) (decReplyPrefix (p :: tail)) hy
  refine ⟨u, ?_⟩
  rw [decodeFrom_eq hi, h, decReplyPrefix_yield_cons, if_pos hp, shortValue_eq_decValue hp]
  simp [decodeDone_eq, decRequest_eq, State.setSrcAnswers, State.emit, State.consume, hi]

/-- A decode of a longer Encoding, in hand or at the source's position: the first byte, and then the other bytes at
once (R98, R99). -/
theorem decodeFrom_of_long {s : State} {p : Byte} {more : List Byte} (hi : s.decState = .idle)
    (hlen : (p :: more).length = prefixLen p) (hp : prefixLen p ≠ 1) (hy : SourceYields 2 s) (tail : List Byte) :
    ∃ u w, decodeFrom (p :: (more ++ tail)) s = .next { s with
      src := { s.src with pos := s.src.pos + prefixLen p }
      decPrefix := p
      srcAnswers := s.srcAnswers.drop 2
      trace := s.trace ++
        [.decReq, .srcReq 1, .srcOk (srcLanes [p] u), .srcReq (BitVec.ofNat 4 (prefixLen p - 1)),
         .srcOk (srcLanes more w)] ++ [.decDone (.ok (decValue (p :: more)))] } := by
  have hmore : prefixLen p - 1 = more.length := by rw [← hlen, List.length_cons, Nat.add_sub_cancel]
  have hpos : s.src.pos + 1 + more.length = s.src.pos + prefixLen p := by have := prefixLen_pos p; omega
  obtain ⟨u, hfirst, hy'⟩ := withSrcAnswer_of_yields (s := decRequest s) (decReplyPrefix (p :: (more ++ tail))) hy
  obtain ⟨w, hsecond, -⟩ := withSrcAnswer_of_yields (s := s.awaitingRest p u s.srcAnswers.tail)
    (decReplyRest (more ++ tail)) hy'
  refine ⟨u, w, ?_⟩
  rw [decodeFrom_eq hi, hfirst, decReplyPrefix_long hp]
  refine (congrArg Host.Outcome.next hsecond).trans ?_
  rw [decReplyRest, memRead_yield w _ (by simp [State.awaitingRest, hmore])]
  simp [State.awaitingRest, hmore, hpos, decodeDone_eq, State.setSrcAnswers, State.emit, State.consume, hi,
    restValue_eq_decValue w hlen, ← List.drop_one]

/-- Settles O33: the form's bytes are an accepted sequence with the payload as its value; in class 1 it is read at once,
in the others with a second read. -/
theorem wireFormsDeliverTheirPayload : Obligations.WireFormsDeliverTheirPayload := by
  intro i n payload s hc hwf hi hy
  have hfit := (wellFormed_iff_fitsClass hc).1 hwf
  have hp := prefixLen_wire payload hfit.pos hfit.le_nine
  have hvalue := hfit.decValue_wireBytes
  have hlen : (wireBytes n payload).length = n := length_bytesLE _ _
  rw [exec_wire hc]
  rw [wireBytes, bytesLE_head hfit.pos] at hvalue hlen ⊢
  generalize BitVec.ofNat 8 (wireInt n payload) = p at hp hvalue hlen ⊢
  generalize bytesLE (n - 1) (wireInt n payload / 256) = more at hvalue hlen ⊢
  by_cases h1 : n = 1
  · rw [if_pos h1] at hy
    obtain rfl : more = [] := List.length_eq_zero_iff.1 (by rw [List.length_cons] at hlen; omega)
    obtain ⟨u, h⟩ := decodeFrom_of_short hi (hp.trans h1) hy []
    rw [hvalue] at h
    exact ⟨_, [.decReq, .srcReq 1, .srcOk (srcLanes [p] u)], h, by simp [h1], by rw [if_pos h1]; rfl⟩
  · rw [if_neg h1] at hy
    obtain ⟨u, w, h⟩ := decodeFrom_of_long hi (hlen.trans hp.symm) (by rwa [hp]) hy []
    rw [List.append_nil, hvalue, hp] at h
    refine ⟨_, [.decReq, .srcReq 1, .srcOk (srcLanes [p] u), .srcReq (BitVec.ofNat 4 (n - 1)),
      .srcOk (srcLanes more w)], h, by simp [h1], ?_⟩
    have hcount : (n - 1) % 16 = n - 1 := by have := hfit.le_nine; omega
    rw [if_neg h1]
    simp [PortEvent.readCount, List.filterMap_cons, hcount]

end Sys2Proof.Machine
end

section
/-! Checks of the decoder's tables on their own: words of the spec, ports, rows and trailing zeros (R52, R53, R62). -/

namespace Sys2Proof.Machine

/-- Settles O1, word by word. -/
theorem tableWordsDecodeToTheirForms : Obligations.TableWordsDecodeToTheirForms := by
  unfold Obligations.TableWordsDecodeToTheirForms
  decide

/-- Settles O2. -/
theorem portSelectsTheOperation : Obligations.PortSelectsTheOperation := fun _ => ⟨rfl, rfl, rfl, rfl, rfl⟩

/-- The rows that a byte lies in are the one of its `PrefixLen` (R53). -/
theorem rows_of_byte (b : Byte) : (wireRows.filter (·.has b)).map (·.len) = [prefixLen b] := by revert b; decide

/-- How many byte values each row holds (R53). -/
theorem row_counts : wireRows.map (fun r => ((List.range 256).map (BitVec.ofNat 8)).countP r.has) =
    [128, 64, 32, 16, 8, 4, 2, 1, 1] := by decide +kernel

/-- Settles O3. -/
theorem everyPrefixByteHasOneRow : Obligations.EveryPrefixByteHasOneRow :=
  ⟨fun b => ⟨rows_of_byte b, rfl⟩, row_counts⟩

theorem tz8_least (b : Byte) (h : b ≠ 0) :
    tz8 b ≤ 7 ∧ b.getLsbD (tz8 b) = true ∧ ∀ j, j < tz8 b → b.getLsbD j = false := by
  revert b; decide

theorem tz8_eq_iff (b : Byte) (z : Nat) (h : z ≤ 8) :
    tz8 b = z ↔ b.toNat % 2 ^ z = 0 ∧ (z = 8 ∨ b.getLsbD z = true) := by
  revert b z; decide

theorem tz8_twoPow (z : Nat) (h : z ≤ 8) : tz8 (BitVec.twoPow 8 z) = z := by revert z; decide

/-- Settles O4: the byte `2^z` has `z` trailing zeros, the byte 0, which is `2^8` in 8 bits, has 8. -/
theorem trailingZerosAreCounted : Obligations.TrailingZerosAreCounted :=
  ⟨fun b => ⟨fun h => h ▸ rfl, tz8_least b, tz8_eq_iff b⟩, fun z h => ⟨_, tz8_twoPow z h⟩⟩

end Sys2Proof.Machine
end

section
/-! SIZE_OF: the significant bits of a Value, the thresholds of its length, and the comparators (R70, R72, R75). -/

namespace Sys2Proof.Machine

/-! ### Significant bits -/

/-- One more than the index of the most significant 1; at 0 too, where `log2` is 0 (R70). -/
theorem bits_eq_log2_add_one (v : Value) : bits v = v.toNat.log2 + 1 := by
  unfold bits
  split
  · next h => simp [h]
  · exact Nat.add_comm _ _

theorem bits_eq_iff {v : Value} {b : Nat} (hv : v ≠ 0) (hb : 1 ≤ b) :
    bits v = b ↔ 2 ^ (b - 1) ≤ v.toNat ∧ v.toNat < 2 ^ b := by
  obtain ⟨k, rfl⟩ := Nat.exists_eq_add_of_le' hb
  rw [bits_eq_log2_add_one, Nat.add_right_cancel_iff, Nat.add_sub_cancel,
    Nat.log2_eq_iff (BitVec.toNat_ne_iff_ne.2 hv)]

theorem getLsbD_bits_sub_one {v : Value} (hv : v ≠ 0) : v.getLsbD (bits v - 1) = true := by
  rw [bits_eq_log2_add_one, Nat.add_sub_cancel]
  exact Nat.testBit_log2 (BitVec.toNat_ne_iff_ne.2 hv)

theorem getLsbD_of_bits_le {v : Value} {j : Nat} (h : bits v ≤ j) : v.getLsbD j = false :=
  Nat.testBit_lt_two_pow ((bits_le_iff v ((bits_pos v).trans h)).1 h)

theorem bits_twoPow {k : Nat} (h : k < 64) : bits (BitVec.twoPow 64 k) = k + 1 := by
  rw [bits_eq_log2_add_one, BitVec.toNat_twoPow_of_lt h, Nat.log2_two_pow]

/-- Settles O10: `2^(b-1)` takes the number `b`. -/
theorem bitsCountsSignificantBits : Obligations.BitsCountsSignificantBits := by
  refine ⟨fun v => ⟨bits_pos v, bits_le v⟩, rfl, rfl, fun v hv => ?_, fun b h1 h64 => ?_⟩
  · obtain ⟨hlow, hhigh⟩ := (bits_eq_iff hv (bits_pos v)).1 rfl
    exact ⟨hlow, hhigh, fun b h1 hlo hhi => ((bits_eq_iff hv h1).2 ⟨hlo, hhi⟩).symm,
      getLsbD_bits_sub_one hv, fun j => getLsbD_of_bits_le⟩
  · exact ⟨BitVec.twoPow 64 (b - 1), (bits_twoPow (by omega)).trans (Nat.sub_add_cancel h1)⟩

/-! ### The thresholds of the length -/

/-- `numBytes_le_iff` read from the other side. -/
theorem lt_numBytes_iff (v : Value) {k : Nat} (h1 : 1 ≤ k) (h8 : k ≤ 8) :
    k < numBytes v ↔ 2 ^ (7 * k) ≤ v.toNat := by
  rw [← Nat.not_le, numBytes_le_iff v h1 h8, Nat.not_lt]

/-- The longest length is the one beyond the last threshold. -/
theorem numBytes_eq_nine_iff (v : Value) : numBytes v = 9 ↔ 2 ^ 56 ≤ v.toNat := by
  have hle := numBytes_le v
  rw [← lt_numBytes_iff v (k := 8) (by decide) (by decide)]
  omega

/-- Settles O11. -/
theorem numBytesIsTheLeastThreshold : Obligations.NumBytesIsTheLeastThreshold := fun v =>
  ⟨numBytes_pos v, numBytes_le v, fun _ => numBytes_le_iff v, numBytes_eq_nine_iff v,
    fun _ h1 _ => bits_le_iff v (by omega)⟩

/-! ### The comparators -/

/-- A slice `v[63:m]` is not zero exactly when the Value reaches the weight of its lowest bit. -/
theorem ushiftRight_ne_zero_iff (v : Value) (m : Nat) : v >>> m ≠ 0 ↔ 2 ^ m ≤ v.toNat := by
  rw [← BitVec.toNat_ne_iff_ne, BitVec.toNat_ushiftRight, Nat.shiftRight_eq_div_pow, ← Nat.not_lt]
  exact not_congr (Nat.div_eq_zero_iff_lt (Nat.two_pow_pos m))

/-- The comparator `c_k` says that `k` bytes are too few (R75). -/
theorem comparator_iff (v : Value) {k : Nat} (h1 : 1 ≤ k) (h8 : k ≤ 8) : v >>> (7 * k) ≠ 0 ↔ k < numBytes v :=
  (ushiftRight_ne_zero_iff v _).trans (lt_numBytes_iff v h1 h8).symm

theorem countP_range_lt (n m : Nat) : (List.range n).countP (fun k => decide (k < m)) = min n m := by
  induction n with
  | zero => simp
  | succ n ih =>
    simp only [List.range_succ, List.countP_append, ih, List.countP_singleton, decide_eq_true_iff]
    split <;> omega

/-- Settles O12: the comparators that hold are those of the `k` below `NumBytes(v)`. -/
theorem comparatorsGiveNumBytes : Obligations.ComparatorsGiveNumBytes := by
  intro v
  refine ⟨fun k _ _ => ushiftRight_ne_zero_iff v _, fun k h1 h7 h => ?_, ?_⟩
  · have hlonger := (comparator_iff v (by omega) (by omega)).1 h
    exact (comparator_iff v h1 (by omega)).2 (by omega)
  · have hpos := numBytes_pos v
    have hle := numBytes_le v
    have hcount : (List.range 8).countP (fun k => decide (v >>> (7 * (k + 1)) ≠ 0)) =
        (List.range 8).countP fun k => decide (k < numBytes v - 1) := by
      refine List.countP_congr fun k hk => ?_
      have hk := List.mem_range.1 hk
      rw [decide_eq_true_iff, decide_eq_true_iff, comparator_iff v (by omega) (by omega)]
      omega
    rw [hcount, countP_range_lt]
    omega

end Sys2Proof.Machine
end

section
/-! ENCODE: what the encoder emits, and the request step and the reply step of ENC (R80, R83 to R88). -/

namespace Sys2Proof.Machine

/-! ### The bytes -/

/-- `encInt_lt` with the bound in bits. -/
theorem encInt_lt_two_pow (v : Value) : encInt v < 2 ^ (8 * numBytes v) := by
  rw [Nat.pow_mul]
  exact encInt_lt v

/-- Settles O15: the encoder's integer is that of the WIRE form of its class. -/
theorem encoderEmitsTheWireFormOfItsClass : Obligations.EncoderEmitsTheWireFormOfItsClass := fun v =>
  ⟨encInt_lt_two_pow v, encInt_lo, encInt_hi, encBytes_eq_wireBytes v⟩

/-- Settles O17: `PrefixLen` is one more than the number of trailing zeros. -/
theorem prefixByteTellsTheLength : Obligations.PrefixByteTellsTheLength := by
  intro v
  obtain ⟨p, rest, hbytes, hlen⟩ := encBytes_cons v
  exact ⟨p, rest, hbytes, Nat.eq_sub_of_add_eq hlen, hlen, length_encBytes v⟩

/-! ### The write request -/

/-- The 72 bits of `snk_data` hold the whole of `EncInt(v)` (R84). -/
theorem snkData_toNat (v : Value) : (snkData v).toNat = encInt v := by
  have hfits : 2 ^ (8 * numBytes v) ≤ 2 ^ 72 :=
    Nat.pow_le_pow_right (by decide) (Nat.mul_le_mul_left 8 (numBytes_le v))
  exact Nat.mod_eq_of_lt (Nat.lt_of_lt_of_le (encInt_lt_two_pow v) hfits)

/-- The lanes of `snk_data` from `snk_len` on are zero (R84). -/
theorem snkData_lane_eq_zero {v : Value} {i : Nat} (h : numBytes v ≤ i) :
    (snkData v).extractLsb' (8 * i) 8 = 0 := by
  have hlt : encInt v < 2 ^ (8 * i) :=
    Nat.lt_of_lt_of_le (encInt_lt_two_pow v) (Nat.pow_le_pow_right (by decide) (Nat.mul_le_mul_left 8 h))
  apply BitVec.eq_of_toNat_eq
  rw [BitVec.extractLsb'_toNat, snkData_toNat, Nat.shiftRight_eq_div_pow, Nat.div_eq_of_lt hlt]
  rfl

/-! ### The request step and the reply step -/

/-- Without a prompt answer `ENCODE` is its request step alone (R84, R168). -/
theorem execEncode_of_wait {v : Value} {s : State} {content : List Byte} {l : List (Option SinkReply)}
    (hi : s.encState = .idle) (hc : s.snk = .clean content) (ha : s.snkAnswers = none :: l) :
    execEncode v s = .next ((encRequest v s).setSnkAnswers l) := by
  rw [execEncode_eq hi hc, withSnkAnswer_none (s := encRequest v s) _ ha]

/-- A busy ENC gives a request no step (R164). -/
theorem execEncode_of_busy {v : Value} {s : State} (hw : s.encState = .write) :
    execEncode v s = .refused .encBusy := by
  simp only [execEncode, hw]

/-- A late answer to a write request is the reply step (R85). -/
theorem sinkReplyEvent_of_write (r : SinkReply) {s : State} (hw : s.encState = .write) :
    sinkReplyEvent r s = .next (encReply r s) := by
  simp only [sinkReplyEvent, hw]

/-- Settles O25: the sink's answer is prompt, so the reply step follows the request step. -/
theorem encodeAppendsItsEncoding : Obligations.EncodeAppendsItsEncoding :=
  fun _ _ _ => execEncode_of_accepts

/-- Settles O27: the state after the request step, the lanes of its request, and the refusal of a busy ENC. -/
theorem encRequestStepIssuesTheWrite : Obligations.EncRequestStepIssuesTheWrite := by
  intro v s
  refine ⟨fun content l hi hc ha => ⟨_, execEncode_of_wait hi hc ha, ?_, rfl⟩, snkLen_toNat v, snkData_toNat v,
    fun i h _ => snkData_lane_eq_zero h, execEncode_of_busy⟩
  simp [encRequest_eq, State.setSnkAnswers]

/-- Settles O29, by the event that comes: `snk_ok`, `snk_err(e)`, or none. -/
theorem lateSinkReplyCompletesEncode : Obligations.LateSinkReplyCompletesEncode := by
  intro s content l hw hc
  refine ⟨fun hin => (step_of_sinkReply hin hw).trans ?_, fun e hin => (step_of_sinkReply hin hw).trans ?_,
    step_of_no_input⟩
  · simp [encReply_ok, State.setInputs, Sink.append, hc]
  · simp [encReply_err, State.setInputs]

/-- Settles O30: both ways the reply step runs at the state that the request step left. -/
theorem encodeOneStepIsItsTwoSteps : Obligations.EncodeOneStepIsItsTwoSteps := by
  intro v s t r l h
  obtain ⟨hi, ⟨content, hc⟩, -⟩ := execEncode_next h
  obtain rfl : (encRequest v { s with snkAnswers := none :: l }).setSnkAnswers l = t :=
    Host.Outcome.next.inj ((execEncode_of_wait hi hc rfl).symm.trans h)
  calc sinkReplyEvent r ((encRequest v { s with snkAnswers := none :: l }).setSnkAnswers l)
      = .next (encReply r ((encRequest v { s with snkAnswers := some r :: l }).setSnkAnswers l)) :=
        sinkReplyEvent_of_write r rfl
    _ = execEncode v { s with snkAnswers := some r :: l } :=
        (execEncode_of_answer (s := { s with snkAnswers := some r :: l }) hi hc rfl).symm

end Sys2Proof.Machine
end

section
/-! DECODE: uniqueness of Encodings, the value DEC forms, its reads and outcomes, and the request step and reply steps of
DEC (R95 to R106, R123). -/

namespace Sys2Proof.Machine

/-! ### Uniqueness -/

theorem canonical_iff_eq (bs : List Byte) : canonical bs = true ↔ bs = encBytes (decValue bs) := by
  rw [canonical, beq_iff_eq]

theorem encBytes_injective : Function.Injective encBytes :=
  Function.LeftInverse.injective decValue_encBytes

/-- The canonical sequence with value `v` is what the encoder writes for `v`, and no other (R123). -/
theorem canonical_with_value_iff (bs : List Byte) (v : Value) :
    canonical bs = true ∧ decValue bs = v ↔ bs = encBytes v := by
  rw [canonical_iff_eq]
  constructor
  · rintro ⟨hbs, rfl⟩
    exact hbs
  · rintro rfl
    rw [decValue_encBytes]
    exact ⟨rfl, rfl⟩

/-- Settles O21: decoding undoes the encoder, and a canonical sequence is the Encoding of its own value. -/
theorem encodingsAreUnique : Obligations.EncodingsAreUnique :=
  ⟨fun _ _ h => encBytes_injective h, fun bs v _ => canonical_with_value_iff bs v, by decide⟩

/-! ### The value DEC forms -/

/-- The shift of a one-byte Encoding fills with zeros (R97). -/
theorem shortValue_toNat (p : Byte) : (shortValue p).toNat = p.toNat / 2 := by
  have := p.isLt
  rw [shortValue, BitVec.toNat_setWidth, BitVec.toNat_ushiftRight, Nat.shiftRight_eq_div_pow]
  omega

/-- Settles O23: `DecValue` in one byte is the shift, in more bytes what the lanes asked for give. -/
theorem replyValueIsDecValueOfTheBytes : Obligations.ReplyValueIsDecValueOfTheBytes := by
  refine ⟨fun p hp => ⟨shortValue_eq_decValue hp, shortValue_toNat p, ?_⟩,
    fun p rest upper hlen _ => restValue_eq_decValue upper hlen⟩
  have := p.isLt
  rw [shortValue_toNat]
  omega

/-! ### The reads and the outcomes of DECODE -/

theorem two_le_prefixLen {p : Byte} (h : prefixLen p ≠ 1) : 2 ≤ prefixLen p := by
  have := prefixLen_pos p
  omega

/-- `src_count` has room for the number of bytes behind the first one (R98, R102). -/
theorem restCount_toNat (p : Byte) : (BitVec.ofNat 4 (prefixLen p - 1)).toNat = prefixLen p - 1 := by
  have := prefixLen_le p
  rw [BitVec.toNat_ofNat, Nat.mod_eq_of_lt (by omega)]

/-- Settles O32, by the length of the sequence: the first byte alone, or a second read for the others. -/
theorem decodeDeliversTheValueAndConsumesIt : Obligations.DecodeDeliversTheValueAndConsumesIt := by
  intro s p more tail hi hr hacc hy
  have hlen : (p :: more).length = prefixLen p := beq_iff_eq.1 hacc
  have hexec : exec .decode s = decodeFrom (p :: (more ++ tail)) s := congrArg (decodeFrom · s) hr
  rw [hexec]
  by_cases hm : more = []
  · subst hm
    obtain ⟨u, h⟩ := decodeFrom_of_short hi hlen.symm hy tail
    exact ⟨_, _, h, rfl, rfl, rfl⟩
  · rw [if_neg hm] at hy
    have hmore : prefixLen p - 1 = more.length := by rw [← hlen, List.length_cons, Nat.add_sub_cancel]
    have hp : prefixLen p ≠ 1 := by
      rw [← hlen, List.length_cons]
      simpa using hm
    obtain ⟨u, w, h⟩ := decodeFrom_of_long hi hlen hp hy tail
    simp only [if_neg hm, hlen]
    exact ⟨_, _, h, rfl, congrArg (fun n => [1, n]) ((restCount_toNat p).trans hmore), rfl⟩

/-- Settles O39: of what a decode can do, the wait and the failure at the first read and the one-byte value need no
second read. -/
theorem decodeReadRequests : Obligations.DecodeReadRequests := by
  intro s t h
  obtain ⟨-, h⟩ := decodeFrom_cases h
  rcases h with ⟨l, rfl⟩ | ⟨e, l, rfl⟩ | ⟨p, tail, u, l, hr, hp, rfl⟩ | ⟨p, tail, u, l, hr, hp, rfl⟩ |
    ⟨p, tail, u, w, l, hr, hp, hle, rfl⟩ | ⟨p, tail, u, e, l, hr, hp, rfl⟩ <;> rw [newEvents, drop_trace rfl]
  · exact .inl rfl
  · exact .inl rfl
  · exact .inl rfl
  all_goals
    have h2 := two_le_prefixLen hp
    have h9 := prefixLen_le p
    exact .inr ⟨p, tail, hr, by omega, by omega, congrArg (fun n => [1, n]) (restCount_toNat p)⟩

/-- An accepted sequence stands in front when its first byte is followed by enough others (R60). -/
theorem accepted_take {p : Byte} {tail : List Byte} (h : prefixLen p - 1 ≤ tail.length) :
    accepted (p :: tail.take (prefixLen p - 1)) = true := by
  have := prefixLen_pos p
  rw [accepted, beq_iff_eq, List.length_cons, List.length_take_of_le h]
  omega

/-- Settles O38: each thing a decode can do is one of the outcomes. -/
theorem decodeOutcomes : Obligations.DecodeOutcomes := by
  intro s t h
  obtain ⟨hi, h⟩ := decodeFrom_cases h
  refine ⟨hi, ?_⟩
  rcases h with ⟨l, rfl⟩ | ⟨e, l, rfl⟩ | ⟨p, tail, u, l, hr, hp, rfl⟩ | ⟨p, tail, u, l, hr, hp, rfl⟩ |
    ⟨p, tail, u, w, l, hr, hp, hle, rfl⟩ | ⟨p, tail, u, e, l, hr, hp, rfl⟩ <;> rw [newEvents, drop_trace rfl]
  · exact .inr (.inr (.inr (.inl ⟨rfl, rfl, rfl, rfl⟩)))
  · exact .inr (.inl ⟨e, _, failedConsumption_le s 1 _, rfl, rfl, rfl, rfl⟩)
  · refine .inl ⟨[p], tail, hr, beq_iff_eq.2 hp.symm, rfl, rfl, rfl, ?_⟩
    rw [← shortValue_eq_decValue hp]
    rfl
  · exact .inr (.inr (.inr (.inr ⟨p, tail, hr, two_le_prefixLen hp, rfl, rfl, rfl, rfl, rfl⟩)))
  · have hacc := accepted_take hle
    refine .inl ⟨_, tail.drop (prefixLen p - 1), ?_, hacc, rfl, ?_, rfl, ?_⟩
    · rw [hr, List.cons_append, List.take_append_drop]
    · simp only [List.length_cons, List.length_take_of_le hle]
      omega
    · rw [← restValue_eq_decValue w (beq_iff_eq.1 hacc)]
      rfl
  · have hc := failedConsumption_le s (prefixLen p - 1) tail.length
    have h2 := two_le_prefixLen hp
    refine .inr (.inr (.inl ⟨e, 1 + s.failedConsumption (prefixLen p - 1) tail.length, p, tail, hr, h2,
      Nat.le_add_right _ _, ?_, rfl, Nat.add_assoc _ _ _, rfl, rfl⟩))
    rw [hr, List.length_cons]
    omega

/-! ### The request step -/

/-- Without a prompt answer `DECODE` is its request step alone (R102, R168). -/
theorem execDecode_of_wait {s : State} {l : List (Option SourceReply)} (hi : s.decState = .idle)
    (ha : s.srcAnswers = none :: l) : execDecode s = .next ((decRequest s).setSrcAnswers l) := by
  rw [execDecode, decodeFrom_eq hi, withSrcAnswer_none (s := decRequest s) _ ha]

/-- A busy DEC gives a request no step, whatever bytes there are (R164). -/
theorem decodeFrom_of_busy {s : State} (h : s.decState ≠ .idle) (next : List Byte) :
    decodeFrom next s = .refused .decBusy := by
  unfold decodeFrom
  split
  · contradiction
  · rfl
  · rfl

/-- Settles O42: the state after the request step; `DECODE` and the WIRE forms are decodes, which a busy DEC refuses. -/
theorem decRequestStepAsksForOneByte : Obligations.DecRequestStepAsksForOneByte := by
  intro s
  refine ⟨fun l hi ha => ⟨_, execDecode_of_wait hi ha, ?_, rfl⟩, fun hb => ⟨decodeFrom_of_busy hb _, ?_⟩⟩
  · simp [decRequest_eq, State.setSrcAnswers]
  · intro i n payload hc
    rw [exec_wire hc, decodeFrom_of_busy hb]

/-! ### The reply steps -/

/-- A late answer to the first read is the reply step in `RD_PREFIX` (R103). -/
theorem sourceReplyEvent_of_rdPrefix (r : SourceReply) {s : State} (h : s.decState = .rdPrefix) :
    sourceReplyEvent r s = .next (decReplyPrefix s.src.rest r s) := by
  simp only [sourceReplyEvent, h]

/-- A late answer to the second read is the reply step in `RD_REST` (R103). -/
theorem sourceReplyEvent_of_rdRest (r : SourceReply) {s : State} (h : s.decState = .rdRest) :
    sourceReplyEvent r s = .next (decReplyRest s.src.rest r s) := by
  simp only [sourceReplyEvent, h]

theorem memRead_of_failure {n : Nat} {next : List Byte} {r : SourceReply} {e : IoErr}
    (h : r = .err e ∨ next.length < n ∧ e = Config.endOfInput ∧ ∃ upper, r = .yield upper) (s : State) :
    memRead n next r s = .failed e ((s.loseBytes n next.length).emit (.srcErr e)) := by
  rcases h with rfl | ⟨hshort, rfl, upper, rfl⟩
  · exact memRead_err e s
  · exact memRead_short upper s hshort

theorem bytesAsked_of_busy {s : State} (h : s.decState ≠ .idle) :
    s.bytesAsked = if s.decState = .rdPrefix then 1 else prefixLen s.decPrefix - 1 := by
  cases hp : s.decState with
  | idle => contradiction
  | rdPrefix => rw [State.bytesAsked, hp]; rfl
  | rdRest => rw [State.bytesAsked, hp]; rfl

/-- A late answer that fails ends the decode with X2 or X3, by the read that it answers (R103, R136). -/
theorem step_of_failed_sourceReply {s : State} {r : SourceReply} {e : IoErr} {l : List Input}
    (hin : s.inputs = .sourceReply r :: l) (hd : s.decState ≠ .idle)
    (h : ∀ u, memRead s.bytesAsked s.src.rest r u =
      .failed e ((u.loseBytes s.bytesAsked s.src.rest.length).emit (.srcErr e))) :
    step s = .next ((((s.setInputs l).loseBytes s.bytesAsked s.src.rest.length).emit (.srcErr e)).raiseIoFailure
      (if s.decState = .rdPrefix then .x2 else .x3) e) := by
  cases hp : s.decState with
  | idle => contradiction
  | rdPrefix =>
    rw [State.bytesAsked, hp] at h
    rw [step_of_prefixReply hin hp, decReplyPrefix, h]
    simp [State.bytesAsked, hp]
  | rdRest =>
    rw [State.bytesAsked, hp] at h
    rw [step_of_restReply hin hp, decReplyRest, State.setInputs_decPrefix, h]
    simp [State.bytesAsked, hp]

/-- Settles O43: a late answer with the bytes takes the reply step of its phase; one that fails completes with what it
carries. -/
theorem lateSourceRepliesDriveDecode : Obligations.LateSourceRepliesDriveDecode := by
  intro s l upper
  refine ⟨fun p tail hd hr hin => ⟨fun hp => ?_, fun m hp ha => ?_⟩, fun hd hn hin => ⟨_, rfl, ?_⟩,
    fun e asked hasked hd h => ?_, step_of_no_input⟩
  · rw [step_of_prefixReply hin hd, hr, decReplyPrefix_yield_cons, if_pos hp]
    simp [decodeDone_eq, State.setInputs, State.emit, State.consume]
  · have hp1 : prefixLen p ≠ 1 := by omega
    rw [step_of_prefixReply hin hd, hr, decReplyPrefix_yield_cons, if_neg hp1,
      withSrcAnswer_none (s := decAskRest p (((s.setInputs l).consume 1).emit (.srcOk (srcLanes [p] upper)))) _ ha]
    simp [decAskRest_eq, State.setSrcAnswers, State.setInputs, State.emit, State.consume]
  · rw [step_of_restReply hin hd, decReplyRest, State.setInputs_decPrefix, memRead_yield upper _ hn]
    simp [decodeDone_eq, State.setInputs, State.emit, State.consume]
  · rw [← bytesAsked_of_busy hd] at hasked
    subst hasked
    obtain ⟨r, hin, hr⟩ : ∃ r, s.inputs = .sourceReply r :: l ∧ (r = .err e ∨
        s.src.rest.length < s.bytesAsked ∧ e = Config.endOfInput ∧ ∃ upper, r = .yield upper) := by
      rcases h with hin | ⟨hshort, he, hin⟩
      · exact ⟨_, hin, .inl rfl⟩
      · exact ⟨_, hin, .inr ⟨hshort, he, upper, rfl⟩⟩
    refine ⟨_, (s.setInputs l).failedConsumption s.bytesAsked s.src.rest.length,
      step_of_failed_sourceReply hin hd (memRead_of_failure hr), ?_⟩
    have hc := failedConsumption_le (s.setInputs l) s.bytesAsked s.src.rest.length
    split
    · exact ⟨rfl, hc, rfl, rfl, List.append_assoc _ _ _⟩
    · exact ⟨rfl, hc, rfl, rfl, List.append_assoc _ _ _⟩

/-! ### Answered late or at once -/

/-- A prompt first byte of a longer Encoding takes `DECODE` to its second read (R98, R103). -/
theorem execDecode_to_second_read {s : State} {p : Byte} {tail : List Byte} {upper : BitVec 64}
    {l : List (Option SourceReply)} (hi : s.decState = .idle) (hr : s.src.rest = p :: tail) (hp : prefixLen p ≠ 1)
    (ha : s.srcAnswers = some (.yield upper) :: l) :
    execDecode s = .next ((s.awaitingRest p upper l).withSrcAnswer (decReplyRest tail)) := by
  rw [execDecode_of_answer hi ha, hr, decReplyPrefix_long hp]

/-- The second read starts behind the first byte (R98). -/
theorem awaitingRest_rest {s : State} {p : Byte} {tail : List Byte} (hr : s.src.rest = p :: tail) (upper : BitVec 64)
    (l : List (Option SourceReply)) : (s.awaitingRest p upper l).src.rest = tail := by
  change (s.consume 1).src.rest = tail
  rw [consume_rest, hr, List.drop_one, List.tail_cons]

/-- Settles O44: both ways the reply step runs at the state that waits, and reads what lies at its position. -/
theorem decodeOneStepIsItsSteps : Obligations.DecodeOneStepIsItsSteps := by
  intro s t r l
  refine ⟨fun h => ?_, fun upper p tail hr hp h => ?_⟩
  · have hi := (decodeFrom_next h).1
    obtain rfl : (decRequest { s with srcAnswers := none :: l }).setSrcAnswers l = t :=
      Host.Outcome.next.inj ((execDecode_of_wait hi rfl).symm.trans h)
    calc sourceReplyEvent r ((decRequest { s with srcAnswers := none :: l }).setSrcAnswers l)
        = .next (decReplyPrefix s.src.rest r ((decRequest { s with srcAnswers := some r :: l }).setSrcAnswers l)) :=
          sourceReplyEvent_of_rdPrefix r rfl
      _ = execDecode { s with srcAnswers := some r :: l } :=
          (execDecode_of_answer (s := { s with srcAnswers := some r :: l }) hi rfl).symm
  · have hi := (decodeFrom_next h).1
    have hp1 : prefixLen p ≠ 1 := by omega
    have hread (l' : List (Option SourceReply)) :=
      execDecode_to_second_read (s := { s with srcAnswers := some (.yield upper) :: l' }) hi hr hp1 rfl
    obtain rfl : s.awaitingRest p upper l = t := Host.Outcome.next.inj ((hread (none :: l)).symm.trans h)
    calc sourceReplyEvent r (s.awaitingRest p upper l)
        = .next (decReplyRest tail r (s.awaitingRest p upper l)) := by
          rw [sourceReplyEvent_of_rdRest r rfl, awaitingRest_rest hr]
      _ = execDecode { s with srcAnswers := some (.yield upper) :: some r :: l } := (hread (some r :: l)).symm

end Sys2Proof.Machine
end

section
/-! The laws of the codec functions: the round trip, the steps of the length, minimal and canonical Encodings, and
truncated input (R119 to R127). -/

namespace Sys2Proof.Machine

/-! ### The round trip -/

/-- Settles O19: what the encoder writes declares its own length, and the decoder's shift takes the payload out of it. -/
theorem decodingAnEncodingGivesTheValue : Obligations.DecodingAnEncodingGivesTheValue := fun v =>
  ⟨accepted_encBytes v, decValue_encBytes v⟩

/-! ### The steps of the length -/

theorem numBytes_mono {u v : Value} (h : u.toNat ≤ v.toNat) : numBytes u ≤ numBytes v := by
  rcases Nat.lt_or_ge 8 (numBytes v) with h9 | h8
  · exact (numBytes_le u).trans h9
  · exact (numBytes_le_iff u (numBytes_pos v) h8).2 (h.trans_lt (lt_of_numBytes_le h8))

theorem toNat_add_one {v : Value} (h : v.toNat + 1 < 2 ^ 64) : (v + 1).toNat = v.toNat + 1 :=
  BitVec.toNat_add_of_lt h

/-- The length passes `k` between `v` and `v + 1` exactly when `v + 1` is the threshold `2^(7k)` (R72, R121). -/
theorem numBytes_passes_iff {v : Value} {k : Nat} (h : v.toNat + 1 < 2 ^ 64) (h1 : 1 ≤ k) (h8 : k ≤ 8) :
    (numBytes v ≤ k ∧ k < numBytes (v + 1)) ↔ v.toNat + 1 = 2 ^ (7 * k) := by
  rw [numBytes_le_iff v h1 h8, lt_numBytes_iff (v + 1) h1 h8, toNat_add_one h]
  omega

/-- At a threshold the length grows by 1: it passes no number but the one of that threshold. -/
theorem numBytes_add_one_of_threshold {v : Value} {k : Nat} (h : v.toNat + 1 < 2 ^ 64) (h1 : 1 ≤ k) (h8 : k ≤ 8)
    (hk : v.toNat + 1 = 2 ^ (7 * k)) : numBytes (v + 1) = numBytes v + 1 := by
  have hpos := numBytes_pos v
  have hnine := numBytes_le (v + 1)
  obtain ⟨hle, hlt⟩ := (numBytes_passes_iff h h1 h8).2 hk
  have only_k {j : Nat} (hj : numBytes v ≤ j) (hj' : j < numBytes (v + 1)) : j = k := by
    have hpow := (numBytes_passes_iff h (k := j) (by omega) (by omega)).1 ⟨hj, hj'⟩
    have := Nat.pow_right_injective (Nat.le_refl 2) (hpow.symm.trans hk)
    omega
  have hfirst : numBytes v = k := only_k (Nat.le_refl _) (by omega)
  have hlast : numBytes (v + 1) - 1 = k := only_k (by omega) (by omega)
  omega

/-- Between thresholds the length stays: were it to grow, it would pass `NumBytes(v)`. -/
theorem numBytes_add_one_of_no_threshold {v : Value} (h : v.toNat + 1 < 2 ^ 64)
    (hno : ¬ ∃ k, 1 ≤ k ∧ k ≤ 8 ∧ v.toNat + 1 = 2 ^ (7 * k)) : numBytes (v + 1) = numBytes v := by
  have hmono : numBytes v ≤ numBytes (v + 1) := numBytes_mono (by rw [toNat_add_one h]; exact Nat.le_succ _)
  refine Nat.le_antisymm (Nat.not_lt.1 fun hlt => hno ?_) hmono
  have hpos := numBytes_pos v
  have h8 : numBytes v ≤ 8 := Nat.le_of_lt_succ (hlt.trans_le (numBytes_le (v + 1)))
  exact ⟨numBytes v, hpos, h8, (numBytes_passes_iff h hpos h8).1 ⟨Nat.le_refl _, hlt⟩⟩

/-- Settles O13. -/
theorem lengthIsANonDecreasingStepFunction : Obligations.LengthIsANonDecreasingStepFunction :=
  ⟨fun _ _ => numBytes_mono, fun _ h =>
    ⟨fun ⟨_, h1, h8, hk⟩ => numBytes_add_one_of_threshold h h1 h8 hk, numBytes_add_one_of_no_threshold h⟩⟩

/-! ### Lengths on the ports, minimal and canonical Encodings -/

/-- Settles O18: the write request of `ENCODE` and the port `bwc_len` both carry `NumBytes(v)`, which four bits hold. -/
theorem lengthsAgree : Obligations.LengthsAgree := by
  refine ⟨length_encBytes, fun v s s' t u henc hsize => ?_⟩
  obtain rfl : s'.setBwcValue v = u := Host.Outcome.next.inj hsize
  have hlen : (s'.setBwcValue v).bwcLen.toNat = numBytes v := bwcLen_toNat _
  rw [hlen, length_encBytes]
  exact ⟨(encode_requests henc).1, rfl⟩

/-- Settles O20: the value of an accepted sequence fits the class of its length. -/
theorem encodingsAreMinimal : Obligations.EncodingsAreMinimal :=
  ⟨length_encBytes, fun _ h => (fitsClass_decValue h).numBytes_le⟩

theorem canonical_encBytes (v : Value) : canonical (encBytes v) = true := by
  rw [canonical_iff_eq, decValue_encBytes]

/-- Settles O22: a canonical sequence is the Encoding of its own value. -/
theorem canonicalSequencesAreTheFixedPoints : Obligations.CanonicalSequencesAreTheFixedPoints := by
  refine ⟨fun bs _ => eq_comm.trans (canonical_iff_eq bs).symm, fun bs => ⟨fun h => ?_, ?_⟩, by decide⟩
  · exact ⟨decValue bs, (canonical_iff_eq bs).1 h⟩
  · rintro ⟨v, rfl⟩
    exact canonical_encBytes v

/-! ### Truncated input -/

/-- A read request to a source that answers at once goes on to its reply step. -/
theorem withSrcAnswer_of_prompt {s : State} {n : Nat} (f : SourceReply → State → State)
    (h : none ∉ s.srcAnswers.take (n + 1)) :
    ∃ r, s.withSrcAnswer f = f r (s.setSrcAnswers s.srcAnswers.tail) ∧ none ∉ s.srcAnswers.tail.take n := by
  rcases hs : s.srcAnswers with _ | ⟨_ | r, l⟩
  · refine ⟨.yield 0, ?_, by simp⟩
    rw [withSrcAnswer_nil f hs, List.tail_nil, setSrcAnswers_self hs]
  · simp [hs] at h
  · rw [hs, List.take_succ_cons, List.mem_cons, not_or] at h
    exact ⟨r, withSrcAnswer_some f hs, h.2⟩

/-- The reply step in `RD_REST` ends the decode, with a value or with X3 (R103). -/
theorem decReplyRest_decState (next : List Byte) (r : SourceReply) (s : State) :
    (decReplyRest next r s).decState = .idle := by
  rcases decReplyRest_cases next r s with ⟨u, -, -, h⟩ | ⟨e, -, h⟩ <;> rw [h] <;> rfl

/-- A decode whose reads, at most two, are answered at once does not wait (R98, R104). -/
theorem decodeFrom_decState_of_prompt {next : List Byte} {s t : State} (h : decodeFrom next s = .next t)
    (ha : none ∉ s.srcAnswers.take 2) : t.decState = .idle := by
  obtain ⟨-, rfl⟩ := decodeFrom_next h
  obtain ⟨r, hfirst, ha'⟩ := withSrcAnswer_of_prompt (s := decRequest s) (decReplyPrefix next) ha
  rw [hfirst]
  rcases decReplyPrefix_cases next r ((decRequest s).setSrcAnswers s.srcAnswers.tail) with
    ⟨u, p, tail, -, -, hreply⟩ | ⟨e, -, hreply⟩
  · refine (congrArg State.decState hreply).trans ?_
    split
    · rfl
    · obtain ⟨r', hsecond, -⟩ := withSrcAnswer_of_prompt (decReplyRest tail)
        (s := decAskRest p ((((decRequest s).setSrcAnswers s.srcAnswers.tail).consume 1).emit
          (.srcOk (srcLanes [p] u)))) ha'
      rw [hsecond, decReplyRest_decState]
  · exact congrArg State.decState hreply

/-- An accepted sequence in front has all the bytes that the first one declares (R60). -/
theorem prefixLen_le_of_accepted_append {bs more : List Byte} (h : accepted bs = true) :
    ∃ p tail, bs ++ more = p :: tail ∧ prefixLen p ≤ (bs ++ more).length := by
  obtain ⟨p, rest, rfl, hlen⟩ := accepted_iff.1 h
  exact ⟨p, rest ++ more, rfl, by rw [List.length_append, ← hlen]; exact Nat.le_add_right _ _⟩

/-- `DECODE` at fewer bytes than the first one declares fails, or waits for an answer (R101). -/
theorem decode_of_truncated {s t : State}
    (hshort : ∀ p tail, s.src.rest = p :: tail → s.src.rest.length < prefixLen p) (h : exec .decode s = .next t) :
    (t.decState = .idle ∧ ∃ e, (newEvents s t).filterMap PortEvent.decOutcome = [.ioError e]) ∨
      (t.decState ≠ .idle ∧ (newEvents s t).filterMap PortEvent.decOutcome = []) := by
  obtain ⟨-, ⟨bs, more, hr, hacc, -⟩ | ⟨e, j, -, hd, -, -, hout⟩ | ⟨e, j, p, tail, -, -, -, -, hd, -, -, hout⟩ |
    ⟨hd, -, -, hout⟩ | ⟨p, tail, -, -, hd, -, -, -, hout⟩⟩ := decodeOutcomes s t h
  · obtain ⟨p, tail, hcons, hle⟩ := prefixLen_le_of_accepted_append (more := more) hacc
    rw [← hr] at hcons hle
    exact absurd (hshort p tail hcons) (Nat.not_lt.2 hle)
  · exact .inl ⟨hd, e, hout⟩
  · exact .inl ⟨hd, e, hout⟩
  · exact .inr ⟨by simp [hd], hout⟩
  · exact .inr ⟨by simp [hd], hout⟩

/-- A proper beginning of an Encoding has fewer bytes than its first one declares (R87, R127). -/
theorem encBytes_take_truncated {v : Value} {j : Nat} {p : Byte} {tail : List Byte} (hj : j < numBytes v)
    (h : (encBytes v).take j = p :: tail) : ((encBytes v).take j).length < prefixLen p := by
  obtain ⟨q, rest, hbytes, hq⟩ := encBytes_cons v
  obtain rfl : q = p := by
    cases j with
    | zero => cases h
    | succ j =>
      rw [hbytes, List.take_succ_cons] at h
      exact (List.cons.inj h).1
  rw [hq]
  exact (List.length_take_le _ _).trans_lt hj

/-- Settles O37: truncated input leaves `DECODE` the failures and the waits, and prompt answers leave it the failures. -/
theorem truncatedInputNeverDeliversAValue : Obligations.TruncatedInputNeverDeliversAValue := by
  refine ⟨fun s t hshort h => ?_, fun v j p tail => encBytes_take_truncated⟩
  rcases decode_of_truncated hshort h with ⟨hd, e, hout⟩ | ⟨hd, hout⟩
  · exact ⟨fun v hv => by simp [hout] at hv, fun _ => ⟨hd, e, hout⟩⟩
  · exact ⟨fun v hv => by simp [hout] at hv, fun ha => absurd (decodeFrom_decState_of_prompt h ha) hd⟩

end Sys2Proof.Machine
end

section
/-! Completions and waiting: the status a completion carries, and a unit that no event releases (R137, R142, R168). -/

namespace Sys2Proof.Machine

/-- Settles O45: each port of a completion is read off the constructor of its result. -/
theorem statusCodesAndNoValueOnFailure : Obligations.StatusCodesAndNoValueOnFailure :=
  fun _ _ => ⟨rfl, rfl, rfl, rfl, rfl, rfl, rfl, rfl⟩

/-- Settles O51: a step without an event answers its own state, so every run does. -/
theorem nothingHappensWithoutAnEvent : Obligations.NothingHappensWithoutAnEvent :=
  fun _ k hinputs => run_of_no_inputs hinputs k

end Sys2Proof.Machine
end

section
/-! What releases a unit, and what has no step: the reply a unit waits for or `rst`, a poisoned sink, replies to no
request, and other users of a stream (R164 to R168, R173). -/

namespace Sys2Proof.Machine

/-! ### What has no step -/

/-- A poisoned sink is not written to (R166). -/
theorem execEncode_of_poisoned {v : Value} {s : State} (hi : s.encState = .idle) (hp : s.snk = .poisoned) :
    execEncode v s = .refused .poisonedSink := by
  simp only [execEncode, hi, hp]

/-- Settles O28: an idle ENC looks at its sink before it issues a request. -/
theorem encodeToAPoisonedSinkIsRefused : Obligations.EncodeToAPoisonedSinkIsRefused :=
  fun _ _ => execEncode_of_poisoned

section
variable {s : State} {l : List Input}

theorem step_of_unawaited_sinkReply {r : SinkReply} (hi : s.encState = .idle) (h : s.inputs = .sinkReply r :: l) :
    step s = .fault .unawaitedSinkReply := by
  simp only [step, h, sinkReplyEvent, State.setInputs_encState, hi]

theorem step_of_unawaited_sourceReply {r : SourceReply} (hi : s.decState = .idle)
    (h : s.inputs = .sourceReply r :: l) : step s = .fault .unawaitedSourceReply := by
  simp only [step, h, sourceReplyEvent, State.setInputs_decState, hi]

theorem step_of_otherSinkUser (h : s.inputs = .otherSinkUser :: l) : step s = .refused .sharedSink := by
  simp only [step, h, otherSinkUserEvent]

theorem step_of_otherSourceUser (h : s.inputs = .otherSourceUser :: l) : step s = .refused .sharedSource := by
  simp only [step, h, otherSourceUserEvent]

end

/-- Settles O53, event by event: a reply stops at the idle unit it comes to, another user in every phase. -/
theorem eventsWithoutAStep : Obligations.EventsWithoutAStep :=
  fun _ _ => ⟨fun _ => step_of_unawaited_sinkReply, fun _ => step_of_unawaited_sourceReply, step_of_otherSinkUser,
    step_of_otherSourceUser⟩

/-! ### A reply step of one unit leaves the other unit's side alone -/

/-- ENC's reply step leaves DEC's side alone and delivers nothing for it (R11). -/
theorem encReply_sameDec (r : SinkReply) (s : State) : SameDec s (encReply r s) := by
  cases r with
  | ok =>
    rw [encReply_ok]
    exact ⟨rfl, rfl, rfl, rfl, rfl, by simp [PortEvent.decOutcome, List.filterMap_cons]⟩
  | err e =>
    rw [encReply_err]
    exact ⟨rfl, rfl, rfl, rfl, rfl, by simp [PortEvent.decOutcome, List.filterMap_cons]⟩

theorem sameDec_setInputs (s : State) (l : List Input) : SameDec s (s.setInputs l) :=
  ⟨rfl, rfl, rfl, rfl, rfl, rfl⟩

theorem sameEnc_setInputs (s : State) (l : List Input) : SameEnc s (s.setInputs l) :=
  ⟨rfl, rfl, rfl, rfl, rfl⟩

theorem SameDec.trans {s t u : State} (h : SameDec s t) (h' : SameDec t u) : SameDec s u :=
  ⟨h'.decState.trans h.decState, h'.decPrefix.trans h.decPrefix, h'.src.trans h.src,
    h'.srcAnswers.trans h.srcAnswers, h'.draws.trans h.draws, h'.outcomes.trans h.outcomes⟩

theorem SameEnc.trans {s t u : State} (h : SameEnc s t) (h' : SameEnc t u) : SameEnc s u :=
  ⟨h'.encState.trans h.encState, h'.encV.trans h.encV, h'.snk.trans h.snk, h'.snkAnswers.trans h.snkAnswers,
    h'.outcomes.trans h.outcomes⟩

/-- DEC's reply step in `RD_REST` leaves ENC's side alone and delivers nothing for it (R11). -/
theorem decReplyRest_sameEnc (next : List Byte) (r : SourceReply) (s : State) :
    SameEnc s (decReplyRest next r s) := by
  rcases decReplyRest_cases next r s with ⟨u, -, -, h⟩ | ⟨e, -, h⟩ <;> rw [h]
  · exact ⟨rfl, rfl, rfl, rfl, by simp [decodeDone_eq, PortEvent.encOutcome, List.filterMap_cons]⟩
  · exact ⟨rfl, rfl, rfl, rfl,
      by simp [raiseIoFailure_x3, loseBytes_eq, PortEvent.encOutcome, List.filterMap_cons]⟩

/-- DEC's reply step in `RD_PREFIX` leaves ENC's side alone, whether or not the rest is read at once (R11). -/
theorem decReplyPrefix_sameEnc (next : List Byte) (r : SourceReply) (s : State) :
    SameEnc s (decReplyPrefix next r s) := by
  rcases decReplyPrefix_cases next r s with ⟨u, p, tail, -, -, h⟩ | ⟨e, -, h⟩ <;> rw [h]
  · split
    · exact ⟨rfl, rfl, rfl, rfl, by simp [decodeDone_eq, PortEvent.encOutcome, List.filterMap_cons]⟩
    · have hask : ∀ l, SameEnc s
          ((decAskRest p ((s.consume 1).emit (.srcOk (srcLanes [p] u)))).setSrcAnswers l) := fun l =>
        ⟨rfl, rfl, rfl, rfl, by simp [decAskRest_eq, PortEvent.encOutcome, List.filterMap_cons]⟩
      rcases withSrcAnswer_cases (decAskRest p ((s.consume 1).emit (.srcOk (srcLanes [p] u))))
        (decReplyRest tail) with ⟨l, h⟩ | ⟨r, l, h⟩ <;> rw [h]
      · exact hask l
      · exact (hask l).trans (decReplyRest_sameEnc tail r _)
  · exact ⟨rfl, rfl, rfl, rfl,
      by simp [raiseIoFailure_x2, loseBytes_eq, PortEvent.encOutcome, List.filterMap_cons]⟩

/-! ### Which unit a step moves -/

/-- A step on an event other than `rst` moves no unit, or one that is idle or gets its reply (R164, R168, R173). -/
theorem step_moves_one_unit {s t : State} {a : Input} {l : List Input} (hin : s.inputs = a :: l)
    (h : step s = .next t) (hrst : a ≠ .rst) :
    (SameEnc s t ∧ SameDec s t) ∨
    (SameDec s t ∧ (s.encState = .idle ∨ ∃ r, a = .sinkReply r)) ∨
    (SameEnc s t ∧ (s.decState = .idle ∨ ∃ r, a = .sourceReply r)) := by
  have head_event {b : Input} {m : List Input} (hb : s.inputs = b :: m) : a = b :=
    (List.cons.inj (hin.symm.trans hb)).1
  rcases step_cases h with ⟨h0, -⟩ | ⟨l', ⟨r, hi, h⟩ | ⟨r, hi, -, rfl⟩ | ⟨r, hi, -, rfl⟩ | ⟨r, hi, -, rfl⟩ | ⟨hi, -⟩⟩
  · exact nomatch h0.symm.trans hin
  · rcases exec_fetched_cases h with ⟨v, -, rfl⟩ | ⟨v, -, h⟩ | ⟨-, next, h⟩
    · exact .inl ⟨⟨rfl, rfl, rfl, rfl, rfl⟩, ⟨rfl, rfl, rfl, rfl, rfl, rfl⟩⟩
    · exact .inr (.inl ⟨(sameDec_setInputs s l').trans (encode_sameDec h), .inl (execEncode_next h).1⟩)
    · exact .inr (.inr ⟨(sameEnc_setInputs s l').trans (decode_sameEnc h), .inl (decodeFrom_next h).1⟩)
  · exact .inr (.inl ⟨(sameDec_setInputs s l').trans (encReply_sameDec r _), .inr ⟨r, head_event hi⟩⟩)
  · exact .inr (.inr ⟨(sameEnc_setInputs s l').trans (decReplyPrefix_sameEnc _ r _), .inr ⟨r, head_event hi⟩⟩)
  · exact .inr (.inr ⟨(sameEnc_setInputs s l').trans (decReplyRest_sameEnc _ r _), .inr ⟨r, head_event hi⟩⟩)
  · exact absurd (head_event hi) hrst

theorem SameEnc.pendingSnkReq {s t : State} (h : SameEnc s t) : t.pendingSnkReq = s.pendingSnkReq := by
  rw [State.pendingSnkReq, State.pendingSnkReq, h.encState, h.encV]

theorem SameDec.pendingSrcReq {s t : State} (h : SameDec s t) : t.pendingSrcReq = s.pendingSrcReq := by
  rw [State.pendingSrcReq, State.pendingSrcReq, h.decState, h.decPrefix]

/-- Settles O52: the unit that a step moves is no waiting one, unless the event is its reply. -/
theorem onlyReplyOrResetReleasesAUnit : Obligations.OnlyReplyOrResetReleasesAUnit := by
  intro s t a l hin h hrst
  refine ⟨fun hw hr => ?_, fun hd hr => ?_⟩
  · have e : SameEnc s t := by
      rcases step_moves_one_unit hin h hrst with ⟨e, -⟩ | ⟨-, hi | ⟨r, ha⟩⟩ | ⟨e, -⟩
      · exact e
      · exact nomatch hi.symm.trans hw
      · exact absurd ha (hr r)
      · exact e
    exact ⟨e.encState.trans hw, e.encV, e.snk, e.pendingSnkReq⟩
  · have d : SameDec s t := by
      rcases step_moves_one_unit hin h hrst with ⟨-, d⟩ | ⟨d, -⟩ | ⟨-, hi | ⟨r, ha⟩⟩
      · exact d
      · exact d
      · exact absurd hi hd
      · exact absurd ha (hr r)
    exact ⟨d.decState, d.decPrefix, d.src, d.pendingSrcReq⟩

end Sys2Proof.Machine
end
